-- ==== Sys2Proof/Word.lean ====
section
/-! DEFINITION. The word types of the block: bytes, handles and millisecond counts (R7, R21, R23). -/

namespace Sys2Proof

/-- A byte, an unsigned integer in `[0, 255]` (R8). Every field of a frame is one byte (R7). -/
abbrev Byte := BitVec 8

/-- A handle, `HANDLE_W` = 16 bits (R6, R23). -/
abbrev Handle := BitVec 16

/-- A count of milliseconds, `TIMER_W` = 32 bits (R6, R142). -/
abbrev Millis := BitVec 32

end Sys2Proof
end

