-- ==== Sys2Proof/Config.lean ====
section
/-! DEFINITION. The parameters of the block (R6) and the model's free value.
The fixed parameters are constants. The OPEN ones that the block reads are fields of `Params`, which State holds as
read-only registers (R29; log 1); the OPEN register addresses, which no operation reads, are fields of `RegMap` (R72; log 14). -/

namespace Sys2Proof.Config

/-- `HEADER` (R6): the two header bytes of every frame. -/
@[simp] abbrev header : List Byte := [0xFF#8, 0xFF#8]

/-- `ID_MIN` (R6). -/
@[simp] abbrev idMin : Int := 0

/-- `ID_MAX` (R6). -/
@[simp] abbrev idMax : Int := 253

/-- `LEN_OVERHEAD` (R6): `length = len(paramBytes) + 3` (R61). -/
@[simp] abbrev lenOverhead : Nat := 3

/-- `FRAME_OVERHEAD` (R6): a frame has `len(paramBytes) + 6` bytes (R61). -/
@[simp] abbrev frameOverhead : Nat := 6

/-- `LEN_DELTA` (R6, conflict C1): a frame of `n` bytes declares `n - 3`. -/
@[simp] abbrev lenDelta : Nat := 3

/-- `MIN_FRAME` (R6). -/
@[simp] abbrev minFrame : Nat := 6

/-- `MAX_PARAMS` (R6, R103). -/
@[simp] abbrev maxParams : Nat := 252

/-- `MAX_FRAME` (R6). -/
@[simp] abbrev maxFrame : Nat := 258

/-- `SUM_W` (R6, R111): the reference width of the checksum accumulator. -/
@[simp] abbrev sumWidth : Nat := 32

/-- `TICK_MS` (R6, R148): the milliseconds one TICK event stands for. -/
@[simp] abbrev tickMs : Nat := 1

/-- The free choice of R149 where two pending records share a handle ("some e in S.Q"): applied to the model's
counter, no value of it can be proved (log 6, DESIGN CHOICE). -/
opaque cancelChoice : Nat → Nat

end Sys2Proof.Config

namespace Sys2Proof

/-- The OPEN parameters the block reads (R6, R29): constant for the life of the block. -/
structure Params where
  /-- `VERIFY_CHECKSUM`: whether VALIDATE performs check 5 (R126). -/
  verifyChecksum : Bool
  /-- `N_EXPECT`: how many expectations may be pending at once (R141). -/
  nExpect : Nat
deriving DecidableEq, Repr

/-- The reference values of R6: `VERIFY_CHECKSUM = 1`, `N_EXPECT = 1`. -/
def Params.reference : Params := { verifyChecksum := true, nExpect := 1 }

/-- The domain of the parameters (R6): `1 <= N_EXPECT < 2^16`. -/
def Params.legal (p : Params) : Bool := decide (1 ≤ p.nExpect) && decide (p.nExpect < 2 ^ 16)

/-- The OPEN servo register addresses (R6, R43): used by the pseudo-operations of R72 only. -/
structure RegMap where
  /-- `REG_ID`. -/
  id : Byte
  /-- `REG_GOAL_POSITION`. -/
  goalPosition : Byte
  /-- `REG_PRESENT_POSITION`. -/
  presentPosition : Byte
  /-- `REG_LED`. -/
  led : Byte
deriving DecidableEq, Repr

end Sys2Proof
end

