-- ==== Sys2Proof/Syntax.lean ====
section
/-! DEFINITION. The syntax: the eight commands (R63), their parameter records (R81 to R87, R89) and the twenty
instructions, one constructor per row of spec/opcode_table.json. -/

namespace Sys2Proof

/-- "Command: closed enumeration of opcodes" (R63). -/
inductive Command where
  | ping
  | readData
  | writeData
  | regWrite
  | action
  | reset
  | syncWrite
  | bulkRead
deriving DecidableEq, Repr

/-- One entry of a SYNC_WRITE record: `{id: byte, data: exactly dataLength bytes}` (R86). -/
structure SyncEntry where
  id : Byte
  data : List Byte
deriving DecidableEq, Repr

/-- One entry of a BULK_READ list: `{id: byte, register: byte, length: byte}` (R87). -/
structure BulkEntry where
  id : Byte
  register : Byte
  length : Byte
deriving DecidableEq, Repr

/-- The parameter variants (R89). -/
inductive Variant where
  | none
  | read
  | write
  | sync
  | bulk
deriving DecidableEq, Repr

/-- CommandParams: the tagged union of parameter records (R12, R89). A record may be ill-formed (R90). -/
inductive ParamRecord where
  /-- PING, ACTION, RESET take no parameters (R80, R84, R85). -/
  | none
  /-- READ_DATA: `{register, length}` (R81). -/
  | read (register length : Byte)
  /-- WRITE_DATA and REG_WRITE: `{register, data}` (R82, R83). -/
  | write (register : Byte) (data : List Byte)
  /-- SYNC_WRITE: `{register, dataLength, entries}` (R86). -/
  | sync (register dataLength : Byte) (entries : List SyncEntry)
  /-- BULK_READ: the list of `{id, register, length}` (R87). -/
  | bulk (entries : List BulkEntry)
deriving DecidableEq, Repr

/-- The instructions: the FRAME rows of spec/opcode_table.json (R63, R74) with the frame's id and the command's own
typed operands, then its OP rows (R73), the operations a caller invokes and the events the environment delivers (R11).
The command operand of ENCODE, BUILD and AWAIT is a byte, so that an unknown command can be presented (R88, R142);
the id of BUILD is an integer (R101). -/
inductive Instr where
  | ping (id : Byte)
  | readData (id register length : Byte)
  | writeData (id register : Byte) (data : List Byte)
  | regWrite (id register : Byte) (data : List Byte)
  | action (id : Byte)
  | reset (id : Byte)
  | syncWrite (id register dataLength : Byte) (entries : List SyncEntry)
  | bulkRead (id : Byte) (entries : List BulkEntry)
  | encode (command : Byte) (params : ParamRecord)
  | build (id : Int) (command : Byte) (params : ParamRecord)
  | checksum (id length command : Byte) (paramBytes : List Byte)
  | chkverify (f : List Byte)
  | parse (f : List Byte)
  | validate (f : List Byte) (expectedId expectedCommand : Byte)
  | await (id command : Byte) (timeoutMs : Millis)
  | cancel (h : Handle)
  | chunk (f : List Byte)
  | tick
  | terr
  | hwreset
deriving DecidableEq, Repr

end Sys2Proof
end

