-- ==== Sys2Proof/Machine/Operands.lean ====
section
/-! DEFINITION. CommandSchema (40_command_schema.md): the command operand, the parameter variants, well-formedness of a
record and its canonical byte encoding. Pure functions; no state. -/

namespace Sys2Proof.Machine

/-- The `cmd` byte of a command (R63). -/
def opcode : Command → Byte
  | .ping => 0x01#8
  | .readData => 0x02#8
  | .writeData => 0x03#8
  | .regWrite => 0x04#8
  | .action => 0x05#8
  | .reset => 0x06#8
  | .syncWrite => 0x83#8
  | .bulkRead => 0x92#8

/-- The closed command set, in the order of R63. -/
def commands : List Command :=
  [.ping, .readData, .writeData, .regWrite, .action, .reset, .syncWrite, .bulkRead]

/-- The command a `cmd` byte names; none for the 248 illegal values (R68). -/
def commandOf (b : Byte) : Option Command := commands.find? fun c => opcode c == b

/-- The variant a command requires (R89). -/
def variantOf : Command → Variant
  | .ping => .none
  | .readData => .read
  | .writeData => .write
  | .regWrite => .write
  | .action => .none
  | .reset => .none
  | .syncWrite => .sync
  | .bulkRead => .bulk

/-- The variant of a supplied record (R89). -/
def variant : ParamRecord → Variant
  | .none => .none
  | .read _ _ => .read
  | .write _ _ => .write
  | .sync _ _ _ => .sync
  | .bulk _ => .bulk

/-- `wf` of R90, for a record of the right variant. -/
def wf : ParamRecord → Bool
  | .none => true
  | .read _ length => length == 1#8 || length == 2#8
  | .write _ data => data.length == 1 || data.length == 2
  | .sync _ dataLength entries => entries.all fun e => e.data.length == dataLength.toNat
  | .bulk _ => true

/-- The bytes of one SYNC_WRITE entry: `[e.id] ++ e.data` (R86). -/
def encSyncEntry (e : SyncEntry) : List Byte := e.id :: e.data

/-- The bytes of one BULK_READ entry: `[e.id, e.register, e.length]` (R87). -/
def encBulkEntry (e : BulkEntry) : List Byte := [e.id, e.register, e.length]

/-- `enc` of R80 to R87: defined for every record, well-formed or not (R90). Commands of one variant share the formula. -/
def enc : ParamRecord → List Byte
  | .none => []
  | .read register length => [register, length]
  | .write register data => register :: data
  | .sync register dataLength entries => register :: dataLength :: entries.flatMap encSyncEntry
  | .bulk entries => entries.flatMap encBulkEntry

end Sys2Proof.Machine
end

