-- ==== Sys2Proof/Machine/Outcome.lean ====
section
/-! DEFINITION. What the block reports: error kinds (R170), validation verdicts (R122), frame records (R120),
completions of expectations (R22, R30) and the values of the result port (R28). -/

namespace Sys2Proof.Machine

/-- The five kinds VALIDATE can answer (R122). -/
inductive MismatchKind where
  | header
  | id
  | length
  | command
  | checksum
deriving DecidableEq, Repr

/-- The complete set of outcome kinds (R170). -/
inductive ErrorKind where
  | invalidId
  | mismatch (k : MismatchKind)
  | timeout
  | transportError
  | cancelled
  | busy
  | notPending
deriving DecidableEq, Repr

/-- The result of VALIDATE: `Ok(payload)` or `Err(kind)` (R122). -/
inductive Verdict where
  | ok (payload : List Byte)
  | err (kind : MismatchKind)
deriving DecidableEq, Repr

/-- The record PARSE returns (R120). -/
structure FrameRecord where
  header : List Byte
  id : Byte
  length : Byte
  cmd : Byte
  params : List Byte
  checksum : Byte
deriving DecidableEq, Repr

/-- The terminal states of an expectation (R22, R30). `rejected` is reached with `transportError` only (R22, conflict C2),
which is an invariant of the model and not a restriction of the type. -/
inductive Completion where
  | resolved (payload : List Byte)
  | timedOut
  | rejected (kind : ErrorKind)
  | cancelled
deriving DecidableEq, Repr

/-- The values of the result port (R28: "a value (bytes, a byte, a payload, a handle) or one kind"). -/
inductive Result where
  /-- No operation has reported a result since reset (log 5). -/
  | none
  /-- ENCODE: paramBytes (R88). -/
  | paramBytes (b : List Byte)
  /-- BUILD and the FRAME rows: the frame (R100). -/
  | frame (f : List Byte)
  /-- CHECKSUM: the byte (R110). -/
  | byte (b : Byte)
  /-- CHKVERIFY: the truth value (R114). -/
  | truth (v : Bool)
  /-- PARSE: the record, or none (R120). -/
  | parsed (r : Option FrameRecord)
  /-- VALIDATE: the payload of `Ok` (R122). -/
  | payload (p : List Byte)
  /-- AWAIT: the handle (R143). -/
  | handle (h : Handle)
  /-- CANCEL: `Ok` (R149). -/
  | ok
  /-- One kind of R170, returned to the caller. -/
  | error (k : ErrorKind)
deriving DecidableEq, Repr

end Sys2Proof.Machine
end

