-- ==== Sys2Proof/Machine/Frame.lean ====
section
/-! DEFINITION. ChecksumAlgorithm (42_checksum.md), frame assembly (R100), the frame parser and FrameValidator
(43_frame_validator.md). Pure functions of their operands and, for VALIDATE, of VERIFY_CHECKSUM (R35). -/

namespace Sys2Proof.Machine

/-- `Σ s` of R9: the sum of the elements as unbounded integers. -/
def sumBytes : List Byte → Nat
  | [] => 0
  | b :: t => b.toNat + sumBytes t

/-- `s[a..b)` of R9. -/
def slice (s : List Byte) (a b : Nat) : List Byte := (s.drop a).take (b - a)

/-- `s[i]` for a position the sequence has (R9); the rules that call it have tested the length. -/
def byteAt (s : List Byte) (i : Nat) : Byte := s.getD i 0#8

/-- CHECKSUM (R110): `(256 - (sum mod 256)) mod 256`. -/
def checksum (id length command : Byte) (paramBytes : List Byte) : Byte :=
  let sum := id.toNat + length.toNat + command.toNat + sumBytes paramBytes
  BitVec.ofNat 8 ((256 - sum % 256) % 256)

/-- CHKVERIFY (R114, R115). -/
def chkverify (f : List Byte) : Bool :=
  if f.length < Config.minFrame then false
  else checksum (byteAt f 2) (byteAt f 3) (byteAt f 4) (slice f 5 (f.length - 1)) == byteAt f (f.length - 1)

/-- The declared length `p + 3` as the byte of a frame (R61); exact for `p <= 252` (R103). -/
def lengthByte (paramBytes : List Byte) : Byte := BitVec.ofNat 8 (paramBytes.length + Config.lenOverhead)

/-- Frame assembly (R60, R62, R100): `header ++ [id, length, cmd] ++ paramBytes ++ [checksum]`. -/
def assemble (id cmd : Byte) (paramBytes : List Byte) : List Byte :=
  Config.header ++ [id, lengthByte paramBytes, cmd] ++ paramBytes
    ++ [checksum id (lengthByte paramBytes) cmd paramBytes]

/-- PARSE (R120): the fields cut by position alone. -/
def parse (f : List Byte) : Option FrameRecord :=
  if f.length < Config.minFrame then none
  else some
    { header := slice f 0 2
      id := byteAt f 2
      length := byteAt f 3
      cmd := byteAt f 4
      params := slice f 5 (f.length - 1)
      checksum := byteAt f (f.length - 1) }

/-- VALIDATE (R122 to R127): the checks in order, the first failure naming the kind. A position the sequence lacks
compares unequal (R123); check 3 also requires `n >= 6` (R124). -/
def validate (verifyChecksum : Bool) (f : List Byte) (expectedId expectedCommand : Byte) : Verdict :=
  if ¬ (2 ≤ f.length ∧ byteAt f 0 = 0xFF#8 ∧ byteAt f 1 = 0xFF#8) then .err .header
  else if ¬ (3 ≤ f.length ∧ byteAt f 2 = expectedId) then .err .id
  else if ¬ (Config.minFrame ≤ f.length ∧ (byteAt f 3).toNat = f.length - Config.lenDelta) then .err .length
  else if ¬ (byteAt f 4 = expectedCommand) then .err .command
  else if verifyChecksum = true ∧ ¬ (chkverify f = true) then .err .checksum
  else .ok (slice f 5 (f.length - 1))

/-- The checksum over an accumulator of `w` bits that wraps on overflow (R111). -/
def checksumAcc (w : Nat) (id length command : Byte) (paramBytes : List Byte) : Byte :=
  let acc := (id :: length :: command :: paramBytes).foldl (fun (a : BitVec w) b => a + BitVec.ofNat w b.toNat) 0
  BitVec.ofNat 8 ((256 - acc.toNat % 256) % 256)

end Sys2Proof.Machine
end

