-- ==== Sys2Proof/Machine/State.lean ====
section
/-! DEFINITION. The state of the block (10_state.md), its reset value (R34), and the reasons a step can stop. -/

namespace Sys2Proof.Machine

/-- Why a step stops with a fault. The block has no traps (R179, R181): every error kind is a value it reports. -/
inductive Fault where
  /-- Raised by `step` when the bytes presented on the input port are no transaction of the model's port format
  (log 9); safe: nothing can be claimed of a run that presents such bytes. -/
  | malformedTransaction
deriving DecidableEq, Repr

/-- Why a call has no meaning: the complete list of R172, and the host's `notModelled`. "The call is outside the block's
contract, the block gives it no result and no meaning, and no state changes." All are safe. -/
inductive Refusal where
  /-- An instruction without a meaning; no arm of `exec` answers it; safe. -/
  | notModelled (mnemonic : String)
  /-- Raised by ENCODE, BUILD, AWAIT and by a frame image: the `cmd` byte is none of the eight (R68, R88, R142); safe. -/
  | unknownCommand
  /-- Raised by ENCODE and BUILD: the record is not the command's variant (R89); safe. -/
  | variantMismatch
  /-- Raised by ENCODE, BUILD and the FRAME rows: `wf` fails (R90); safe. -/
  | illFormedParams
  /-- Raised by BUILD and the FRAME rows: `len(paramBytes) > 252` (R103); safe. -/
  | paramTooLong
  /-- Raised by the operation port: OPSEL 0x0, 0xC, 0xD or 0xE (R73); safe. -/
  | unknownOperation
deriving DecidableEq, Repr

/-- An expectation record (R21). -/
structure Expectation where
  /-- Names this expectation in the streams and to CANCEL. -/
  handle : Handle
  /-- The byte `frame[2]` must equal. -/
  expId : Byte
  /-- The byte `frame[4]` must equal. -/
  expCmd : Byte
  /-- TICK events left before expiry. -/
  remaining : Millis
deriving DecidableEq, Repr

/-- The state: the four fields of R20, the read-only parameters (R29), and the model's own ports and counter. -/
structure State where
  /-- `S.Q` (R20, R24): the pending expectations, oldest first. -/
  queue : List Expectation
  /-- `S.NEXT_HANDLE` (R20, R23). -/
  nextHandle : Handle
  /-- `S.DONE` (R20, R30). -/
  done : List (Handle × Completion)
  /-- `S.DIAG` (R20, R31). -/
  diag : List (Handle × MismatchKind)
  /-- The parameters (R6, R29): written by nothing. -/
  params : Params
  /-- The model's own: the transactions the environment presents, the next one first (R50; log 2). -/
  input : List (List Byte)
  /-- The model's own: the result port (R28; log 5). -/
  result : Result
  /-- The model's own: how many free choices have been taken (log 6). -/
  freeIdx : Nat
deriving DecidableEq, Repr

/-- The state after HWRESET (R34, R201) for given parameters, with nothing presented. -/
def State.resetWith (p : Params) : State :=
  { queue := [], nextHandle := 0#16, done := [], diag := [], params := p, input := [], result := .none, freeIdx := 0 }

/-- The machine right after reset, with the reference values of the parameters (R6; log 1). -/
def State.reset : State := State.resetWith Params.reference

end Sys2Proof.Machine
end

