-- ==== Sys2Proof/Machine/Ops.lean ====
section
/-! DEFINITION. The shared operations on the state. There is no memory and no register file (R26, R156); the block's
analogue of taking an exception is the effect table of R179: a kind returned to the caller (`report`), a diagnostic entry
(`diagnose`) and a terminal transition (`terminate`). There is no return from one (R181). -/

namespace Sys2Proof.Machine

/-- `LISTENING` (R25): the listener is registered exactly while an expectation is pending. -/
def State.listening (s : State) : Bool := decide (0 < s.queue.length)

/-- An operation returns a result (R28). -/
def respond (s : State) (r : Result) : State := { s with result := r }

/-- An operation returns a kind of R170 to its caller and changes nothing of `S` (R179). -/
def report (s : State) (k : ErrorKind) : State := respond s (.error k)

/-- `emit DIAG(h, kind)` (R10, R31). -/
def diagnose (s : State) (h : Handle) (k : MismatchKind) : State := { s with diag := s.diag ++ [(h, k)] }

/-- The terminal transitions (R22, R179): the records outside `kept` leave `S.Q` and their entries join `S.DONE`, in one
atomic step (R53). -/
def terminate (s : State) (kept : List Expectation) (ended : List (Handle × Completion)) : State :=
  { s with queue := kept, done := s.done ++ ended }

/-- The registration of AWAIT (R143): a new record at the tail, the handle counter one on, the handle returned.
DEDUCED (log 7), safe: the counter may return the handle of a record still pending or ended since the last wrap, where R23,
R33 (2) and R33 (6) derive that it cannot. -/
def register (s : State) (id cmd : Byte) (timeoutMs : Millis) : State :=
  { s with
    queue := s.queue ++ [{ handle := s.nextHandle, expId := id, expCmd := cmd, remaining := timeoutMs }]
    nextHandle := s.nextHandle + 1#16
    result := .handle s.nextHandle }

/-- One TICK over the queue (R148), oldest first: the records kept and the completions, in queue order (R176). -/
def tickQueue : List Expectation → List Expectation × List (Handle × Completion)
  | [] => ([], [])
  | e :: q =>
    let r := tickQueue q
    if e.remaining.toNat ≤ 1 then (r.1, (e.handle, .timedOut) :: r.2)
    else ({ e with remaining := e.remaining - 1#32 } :: r.1, r.2)

/-- The queue without the record that is number `n` (from 0) among those with handle `h`; order of the others kept (R149). -/
def dropPending (h : Handle) : Nat → List Expectation → List Expectation
  | _, [] => []
  | n, e :: q =>
    if e.handle = h then
      match n with
      | 0 => q
      | n + 1 => e :: dropPending h n q
    else e :: dropPending h n q

/-- How many pending records have handle `h`. -/
def pendingCount (h : Handle) (q : List Expectation) : Nat := q.countP fun e => e.handle == h

/-- The admission tests of R88, in order: known command, matching variant, well-formed record. -/
def checkCall (command : Byte) (params : ParamRecord) : Except Refusal Command :=
  match commandOf command with
  | none => .error .unknownCommand
  | some c =>
    if variant params ≠ variantOf c then .error .variantMismatch
    else if wf params then .ok c
    else .error .illFormedParams

/-- BUILD (R100): the refusals first (R104), then the id precondition over the integers (R101), then assembly. -/
def buildFrame (id : Int) (command : Byte) (params : ParamRecord) (s : State) : Host.Outcome State Fault Refusal :=
  match checkCall command params with
  | .error r => .refused r
  | .ok c =>
    if (enc params).length > Config.maxParams then .refused .paramTooLong
    else if Config.idMin ≤ id ∧ id ≤ Config.idMax then
      .next (respond s (.frame (assemble (BitVec.ofInt 8 id) (opcode c) (enc params))))
    else .next (report s .invalidId)

/-- A command presented by its frame image: BUILD of its own id, opcode and record (R3, R100; log 4). -/
def buildCommand (id : Byte) (c : Command) (params : ParamRecord) (s : State) : Host.Outcome State Fault Refusal :=
  buildFrame (Int.ofNat id.toNat) (opcode c) params s

end Sys2Proof.Machine
end

