-- ==== Sys2Proof/Machine/Codec.lean ====
section
/-! DEFINITION. The meanings of the pure operations: ENCODE, BUILD, CHECKSUM, CHKVERIFY, PARSE, VALIDATE. They neither
read nor write `S` (R35); each reports its result (R28). -/

namespace Sys2Proof.Machine

/-- ENCODE (R88). -/
def execEncode (command : Byte) (params : ParamRecord) (s : State) : Host.Outcome State Fault Refusal :=
  match checkCall command params with
  | .error r => .refused r
  | .ok _ => .next (respond s (.paramBytes (enc params)))

/-- BUILD (R100). -/
def execBuild (id : Int) (command : Byte) (params : ParamRecord) (s : State) : Host.Outcome State Fault Refusal :=
  buildFrame id command params s

/-- CHECKSUM (R110). -/
def execChecksum (id length command : Byte) (paramBytes : List Byte) (s : State) : Host.Outcome State Fault Refusal :=
  .next (respond s (.byte (checksum id length command paramBytes)))

/-- CHKVERIFY (R114). -/
def execChkverify (f : List Byte) (s : State) : Host.Outcome State Fault Refusal :=
  .next (respond s (.truth (chkverify f)))

/-- PARSE (R120). -/
def execParse (f : List Byte) (s : State) : Host.Outcome State Fault Refusal :=
  .next (respond s (.parsed (parse f)))

/-- VALIDATE (R122). An `Err(kind)` is returned to the caller (R130, R179). -/
def execValidate (f : List Byte) (expectedId expectedCommand : Byte) (s : State) : Host.Outcome State Fault Refusal :=
  match validate s.params.verifyChecksum f expectedId expectedCommand with
  | .ok payload => .next (respond s (.payload payload))
  | .err kind => .next (report s (.mismatch kind))

end Sys2Proof.Machine
end

