-- ==== Sys2Proof/Machine/Commands.lean ====
section
/-! DEFINITION. The meanings of the FRAME rows: the eight commands (R80 to R87), each built into its frame (R100). -/

namespace Sys2Proof.Machine

/-- PING (R80). -/
def execPing (id : Byte) (s : State) : Host.Outcome State Fault Refusal :=
  buildCommand id .ping .none s

/-- READ_DATA (R81). -/
def execReadData (id register length : Byte) (s : State) : Host.Outcome State Fault Refusal :=
  buildCommand id .readData (.read register length) s

/-- WRITE_DATA (R82). -/
def execWriteData (id register : Byte) (data : List Byte) (s : State) : Host.Outcome State Fault Refusal :=
  buildCommand id .writeData (.write register data) s

/-- REG_WRITE (R83). -/
def execRegWrite (id register : Byte) (data : List Byte) (s : State) : Host.Outcome State Fault Refusal :=
  buildCommand id .regWrite (.write register data) s

/-- ACTION (R84). -/
def execAction (id : Byte) (s : State) : Host.Outcome State Fault Refusal :=
  buildCommand id .action .none s

/-- RESET, the command (R85): "building a RESET frame has no effect whatever on the block's state". -/
def execReset (id : Byte) (s : State) : Host.Outcome State Fault Refusal :=
  buildCommand id .reset .none s

/-- SYNC_WRITE (R86). -/
def execSyncWrite (id register dataLength : Byte) (entries : List SyncEntry) (s : State) :
    Host.Outcome State Fault Refusal :=
  buildCommand id .syncWrite (.sync register dataLength entries) s

/-- BULK_READ (R87). -/
def execBulkRead (id : Byte) (entries : List BulkEntry) (s : State) : Host.Outcome State Fault Refusal :=
  buildCommand id .bulkRead (.bulk entries) s

end Sys2Proof.Machine
end

