-- ==== Sys2Proof/Machine/Correlator.lean ====
section
/-! DEFINITION. The meanings of the correlator's operations and events: AWAIT, CANCEL, CHUNK, TICK, TERR (44_correlator.md)
and HWRESET (R200). -/

namespace Sys2Proof.Machine

/-- AWAIT (R143, R144): UnknownCommand is tested before Busy (R175). -/
def execAwait (id command : Byte) (timeoutMs : Millis) (s : State) : Host.Outcome State Fault Refusal :=
  match commandOf command with
  | none => .refused .unknownCommand
  | some c =>
    if s.params.nExpect ≤ s.queue.length then .next (report s .busy)
    else .next (register s id (opcode c) timeoutMs)

/-- CANCEL (R149). Where several pending records have the handle, which one ends is the free choice (log 6). -/
def execCancel (h : Handle) (s : State) : Host.Outcome State Fault Refusal :=
  match pendingCount h s.queue with
  | 0 => .next (report s .notPending)
  | 1 => .next (respond (terminate s (dropPending h 0 s.queue) [(h, .cancelled)]) .ok)
  | n + 2 =>
    let pick := Config.cancelChoice s.freeIdx % (n + 2)
    .next { respond (terminate s (dropPending h pick s.queue) [(h, .cancelled)]) .ok with freeIdx := s.freeIdx + 1 }

/-- CHUNK (R145 to R147): only the head is tried (R177); with nothing pending the chunk reaches nobody. An event has no
result, so the result port keeps its value (log 5). -/
def execChunk (f : List Byte) (s : State) : Host.Outcome State Fault Refusal :=
  match s.queue with
  | [] => .next s
  | e :: q =>
    match validate s.params.verifyChecksum f e.expId e.expCmd with
    | .ok payload => .next (terminate s q [(e.handle, .resolved payload)])
    | .err kind => .next (diagnose s e.handle kind)

/-- TICK (R148). -/
def execTick (s : State) : Host.Outcome State Fault Refusal :=
  .next (terminate s (tickQueue s.queue).1 (tickQueue s.queue).2)

/-- TERR (R150): every pending expectation is rejected, oldest first (R176). -/
def execTerr (s : State) : Host.Outcome State Fault Refusal :=
  .next (terminate s [] (s.queue.map fun e => (e.handle, .rejected .transportError)))

/-- HWRESET (R200): the reset state, the parameters unchanged; what the environment still presents is not the block's
(log 11). -/
def execHwreset (s : State) : Host.Outcome State Fault Refusal :=
  .next { State.resetWith s.params with input := s.input, freeIdx := s.freeIdx }

end Sys2Proof.Machine
end

