-- ==== Sys2Proof/Machine/Dispatch.lean ====
section
/-! DEFINITION. The dispatch of instructions to their meanings, one arm per row of spec/opcode_table.json. -/

namespace Sys2Proof.Machine

def exec (i : Instr) (s : State) : Host.Outcome State Fault Refusal :=
  match i with
  | .ping id => Sys2Proof.Machine.execPing id s
  | .readData id register length => Sys2Proof.Machine.execReadData id register length s
  | .writeData id register data => Sys2Proof.Machine.execWriteData id register data s
  | .regWrite id register data => Sys2Proof.Machine.execRegWrite id register data s
  | .action id => Sys2Proof.Machine.execAction id s
  | .reset id => Sys2Proof.Machine.execReset id s
  | .syncWrite id register dataLength entries => Sys2Proof.Machine.execSyncWrite id register dataLength entries s
  | .bulkRead id entries => Sys2Proof.Machine.execBulkRead id entries s
  | .encode command params => Sys2Proof.Machine.execEncode command params s
  | .build id command params => Sys2Proof.Machine.execBuild id command params s
  | .checksum id length command paramBytes => Sys2Proof.Machine.execChecksum id length command paramBytes s
  | .chkverify f => Sys2Proof.Machine.execChkverify f s
  | .parse f => Sys2Proof.Machine.execParse f s
  | .validate f expectedId expectedCommand => Sys2Proof.Machine.execValidate f expectedId expectedCommand s
  | .await id command timeoutMs => Sys2Proof.Machine.execAwait id command timeoutMs s
  | .cancel h => Sys2Proof.Machine.execCancel h s
  | .chunk f => Sys2Proof.Machine.execChunk f s
  | .tick => Sys2Proof.Machine.execTick s
  | .terr => Sys2Proof.Machine.execTerr s
  | .hwreset => Sys2Proof.Machine.execHwreset s

end Sys2Proof.Machine
end

