-- ==== Sys2Proof/WellFormed.lean ====
section
/-! DEFINITION. Well-formed instructions: the calls inside the block's contract, that is those no refusal of R172
applies to. The checks are written from the tables of R63 and R90, not from the machine. -/

namespace Sys2Proof

/-- `p`, the number of parameter bytes, from the table of R63. -/
def ParamRecord.paramLength : ParamRecord → Nat
  | .none => 0
  | .read _ _ => 2
  | .write _ data => 1 + data.length
  | .sync _ dataLength entries => 2 + entries.length * (1 + dataLength.toNat)
  | .bulk entries => 3 * entries.length

/-- The parameter variant a `cmd` byte requires (R63, R89); none for an unknown command (R68). -/
def requiredVariant (b : Byte) : Option Variant :=
  if b = 0x01#8 ∨ b = 0x05#8 ∨ b = 0x06#8 then some .none
  else if b = 0x02#8 then some .read
  else if b = 0x03#8 ∨ b = 0x04#8 then some .write
  else if b = 0x83#8 then some .sync
  else if b = 0x92#8 then some .bulk
  else none

/-- A call of ENCODE inside the contract: known command (R88), matching variant (R89), well-formed record (R90). -/
def callWellFormed (command : Byte) (params : ParamRecord) : Bool :=
  requiredVariant command == some (Machine.variant params) && Machine.wf params

/-- A record BUILD accepts: well-formed (R90) and `p <= 252` (R103). -/
def recordBuildable (params : ParamRecord) : Bool :=
  Machine.wf params && decide (params.paramLength ≤ Config.maxParams)

/-- Well-formed instructions: exactly those no refusal of R172 applies to. -/
def Instr.wellFormed : Instr → Bool
  | .ping _ => true
  | .readData _ register length => recordBuildable (.read register length)
  | .writeData _ register data => recordBuildable (.write register data)
  | .regWrite _ register data => recordBuildable (.write register data)
  | .action _ => true
  | .reset _ => true
  | .syncWrite _ register dataLength entries => recordBuildable (.sync register dataLength entries)
  | .bulkRead _ entries => recordBuildable (.bulk entries)
  | .encode command params => callWellFormed command params
  | .build _ command params => callWellFormed command params && decide (params.paramLength ≤ Config.maxParams)
  | .checksum _ _ _ _ => true
  | .chkverify _ => true
  | .parse _ => true
  | .validate _ _ _ => true
  | .await _ command _ => (requiredVariant command).isSome
  | .cancel _ => true
  | .chunk _ => true
  | .tick => true
  | .terr => true
  | .hwreset => true

end Sys2Proof
end

