-- ==== Sys2Proof/Decode.lean ====
section
/-! DEFINITION. The decoder and encoder of transactions.
A transaction is what the environment presents for one step: a byte list (log 2). Two forms (R74):
FRAME, a command's frame image `[0xFF, 0xFF, id, length, cmd, ...paramBytes, checksum]` (R60), and
OP, a byte whose low four bits are OPSEL and whose high four bits are zero (R73), then the operands.
The spec gives the operation ports no encoding beyond OPSEL: the layout of the operands is the model's (log 3).
The decoder is total and rejects by name. -/

namespace Sys2Proof

/-- Why a transaction is rejected. -/
inductive DecodeError where
  /-- OPSEL 0x0, 0xC, 0xD or 0xE (R73). -/
  | unknownOperation
  /-- A frame image whose `cmd` byte is none of the eight (R68). -/
  | unknownCommand
  /-- No transaction of the port format (log 9). -/
  | malformed
deriving DecidableEq, Repr

/-- What the decoder answers. -/
inductive Decoded where
  | instr (i : Instr)
  | reject (e : DecodeError)
deriving DecidableEq, Repr

/-- An operand that was read, or `malformed` where there was none. -/
def Decoded.ofOption : Option Instr → Decoded
  | some i => .instr i
  | none => .reject .malformed

/-! ### Operands of unbounded size (log 3) -/

/-- A natural number as bytes `0xFF` worth 255 each and one last byte below `0xFF`. -/
def encodeNat (n : Nat) : List Byte := List.replicate (n / 255) 0xFF#8 ++ [BitVec.ofNat 8 (n % 255)]

/-- Reads what `encodeNat` writes, and the bytes after it. -/
def decodeNat : List Byte → Option (Nat × List Byte)
  | [] => none
  | b :: t => if b = 0xFF#8 then (decodeNat t).map fun r => (r.1 + 255, r.2) else some (b.toNat, t)

/-- An integer: a sign byte (0: the number follows; 1: minus one minus the number that follows), then a natural. -/
def encodeInt : Int → List Byte
  | .ofNat n => 0x00#8 :: encodeNat n
  | .negSucc n => 0x01#8 :: encodeNat n

/-- Reads what `encodeInt` writes, and the bytes after it. -/
def decodeInt : List Byte → Option (Int × List Byte)
  | [] => none
  | b :: t =>
    if b = 0x00#8 then (decodeNat t).map fun r => (Int.ofNat r.1, r.2)
    else if b = 0x01#8 then (decodeNat t).map fun r => (Int.negSucc r.1, r.2)
    else none

/-- The `k` bytes of a word, lowest byte first. -/
def bytesLE : Nat → Nat → List Byte
  | 0, _ => []
  | k + 1, v => BitVec.ofNat 8 v :: bytesLE k (v / 256)

/-- The value of bytes, lowest byte first. -/
def valueLE : List Byte → Nat
  | [] => 0
  | b :: t => b.toNat + 256 * valueLE t

/-! ### Parameter records at the operation port (log 3) -/

/-- The entries of a BULK_READ list: groups of three bytes (R65). -/
def decodeBulk : List Byte → Option (List BulkEntry)
  | [] => some []
  | id :: register :: length :: t => (decodeBulk t).map fun es => ⟨id, register, length⟩ :: es
  | _ => none

/-- The entries of a SYNC_WRITE record at the operation port: id, number of data bytes, data bytes. Each entry carries
its own count, so that an entry which breaks R90 can be presented. -/
def encodePortEntries (entries : List SyncEntry) : List Byte :=
  entries.flatMap fun e => e.id :: (encodeNat e.data.length ++ e.data)

/-- Reads what `encodePortEntries` writes; the fuel bounds the number of entries. -/
def decodePortEntries : Nat → List Byte → Option (List SyncEntry)
  | _, [] => some []
  | 0, _ :: _ => none
  | fuel + 1, id :: t =>
    match decodeNat t with
    | none => none
    | some (n, r) =>
      if r.length < n then none
      else (decodePortEntries fuel (r.drop n)).map fun es => ⟨id, r.take n⟩ :: es

/-- A parameter record at the operation port: a variant byte (0 none, 1 read, 2 write, 3 sync, 4 bulk), then its fields. -/
def encodeRecord : ParamRecord → List Byte
  | .none => [0x00#8]
  | .read register length => [0x01#8, register, length]
  | .write register data => 0x02#8 :: register :: data
  | .sync register dataLength entries => 0x03#8 :: register :: dataLength :: encodePortEntries entries
  | .bulk entries => 0x04#8 :: entries.flatMap Machine.encBulkEntry

/-- The fields of a read record. -/
def decodeReadRecord : List Byte → Option ParamRecord
  | [register, length] => some (.read register length)
  | _ => none

/-- The fields of a write record. -/
def decodeWriteRecord : List Byte → Option ParamRecord
  | register :: data => some (.write register data)
  | [] => none

/-- The fields of a sync record. -/
def decodeSyncRecord : List Byte → Option ParamRecord
  | register :: dataLength :: r => (decodePortEntries r.length r).map fun es => .sync register dataLength es
  | _ => none

/-- Reads a whole parameter record at the operation port. -/
def decodeRecord : List Byte → Option ParamRecord
  | [] => none
  | v :: t =>
    if v = 0x00#8 then (if t.isEmpty then some .none else none)
    else if v = 0x01#8 then decodeReadRecord t
    else if v = 0x02#8 then decodeWriteRecord t
    else if v = 0x03#8 then decodeSyncRecord t
    else if v = 0x04#8 then (decodeBulk t).map fun es => .bulk es
    else none

/-! ### The frame form -/

/-- The entries of SYNC_WRITE parameter bytes: groups of `1 + dataLength` bytes (R65); the fuel bounds their number. -/
def decodeGroups (dataLength : Nat) : Nat → List Byte → Option (List SyncEntry)
  | _, [] => some []
  | 0, _ :: _ => none
  | fuel + 1, id :: t =>
    if t.length < dataLength then none
    else (decodeGroups dataLength fuel (t.drop dataLength)).map fun es => ⟨id, t.take dataLength⟩ :: es

/-- The fields of READ_DATA parameter bytes. -/
def decodeRead (id : Byte) : List Byte → Option Instr
  | [register, length] => some (.readData id register length)
  | _ => none

/-- The fields of WRITE_DATA and REG_WRITE parameter bytes: the first byte the register, the others data (R65). -/
def decodeWrite (make : Byte → List Byte → Instr) : List Byte → Option Instr
  | register :: data => some (make register data)
  | [] => none

/-- The fields of SYNC_WRITE parameter bytes (R65). -/
def decodeSync (id : Byte) : List Byte → Option Instr
  | register :: dataLength :: r =>
    (decodeGroups dataLength.toNat r.length r).map fun es => .syncWrite id register dataLength es
  | _ => none

/-- A command with the parameter bytes of its frame, inverting the table of R63 as R64 and R65 say. -/
def decodeParams (id : Byte) (c : Command) (paramBytes : List Byte) : Option Instr :=
  match c with
  | .ping => if paramBytes.isEmpty then some (.ping id) else none
  | .readData => decodeRead id paramBytes
  | .writeData => decodeWrite (.writeData id) paramBytes
  | .regWrite => decodeWrite (.regWrite id) paramBytes
  | .action => if paramBytes.isEmpty then some (.action id) else none
  | .reset => if paramBytes.isEmpty then some (.reset id) else none
  | .syncWrite => decodeSync id paramBytes
  | .bulkRead => (decodeBulk paramBytes).map fun es => .bulkRead id es

/-- A frame image after its first header byte. R66: a frame carries the command that its header and `cmd` byte name; the
`length` and checksum bytes are the builder's to compute (R62), so what the image holds there is not read (log 4). -/
def decodeFrame : List Byte → Decoded
  | h :: id :: _length :: cmd :: tail =>
    if h = 0xFF#8 then
      match Machine.commandOf cmd with
      | none => .reject .unknownCommand
      | some c => if tail.isEmpty then .reject .malformed else .ofOption (decodeParams id c tail.dropLast)
    else .reject .malformed
  | _ => .reject .malformed

/-! ### The operation form -/

/-- The operands of ENCODE: command byte, parameter record. -/
def decodeEncode : List Byte → Decoded
  | cmd :: r => .ofOption ((decodeRecord r).map fun p => .encode cmd p)
  | [] => .reject .malformed

/-- The operands of BUILD: integer id, command byte, parameter record. -/
def decodeBuild (t : List Byte) : Decoded :=
  match decodeInt t with
  | some (id, cmd :: r) => .ofOption ((decodeRecord r).map fun p => .build id cmd p)
  | _ => .reject .malformed

/-- The operands of CHECKSUM: id, length, command, parameter bytes. -/
def decodeChecksum : List Byte → Decoded
  | id :: length :: cmd :: r => .instr (.checksum id length cmd r)
  | _ => .reject .malformed

/-- The operands of VALIDATE: expected id, expected command, the sequence. -/
def decodeValidate : List Byte → Decoded
  | expectedId :: expectedCommand :: r => .instr (.validate r expectedId expectedCommand)
  | _ => .reject .malformed

/-- The operands of AWAIT: id, command byte, the timeout in four bytes, low byte first. -/
def decodeAwait : List Byte → Decoded
  | [id, cmd, t0, t1, t2, t3] => .instr (.await id cmd (BitVec.ofNat 32 (valueLE [t0, t1, t2, t3])))
  | _ => .reject .malformed

/-- The operand of CANCEL: the handle in two bytes, low byte first. -/
def decodeCancel : List Byte → Decoded
  | [h0, h1] => .instr (.cancel (BitVec.ofNat 16 (valueLE [h0, h1])))
  | _ => .reject .malformed

/-- An event without operands. -/
def decodeEvent (i : Instr) (t : List Byte) : Decoded := if t.isEmpty then .instr i else .reject .malformed

/-- An operation or event by its OPSEL (R73), with the bytes after it. -/
def decodeOp (opsel : BitVec 4) (t : List Byte) : Decoded :=
  if opsel = 0x1#4 then decodeEncode t
  else if opsel = 0x2#4 then decodeBuild t
  else if opsel = 0x3#4 then decodeChecksum t
  else if opsel = 0x4#4 then .instr (.chkverify t)
  else if opsel = 0x5#4 then .instr (.parse t)
  else if opsel = 0x6#4 then decodeValidate t
  else if opsel = 0x7#4 then decodeAwait t
  else if opsel = 0x8#4 then decodeCancel t
  else if opsel = 0x9#4 then .instr (.chunk t)
  else if opsel = 0xA#4 then decodeEvent .tick t
  else if opsel = 0xB#4 then decodeEvent .terr t
  else if opsel = 0xF#4 then decodeEvent .hwreset t
  else .reject .unknownOperation

/-- The instruction of a transaction. -/
def decode : List Byte → Decoded
  | [] => .reject .malformed
  | b :: t =>
    if b = 0xFF#8 then decodeFrame t
    else if b.toNat < 16 then decodeOp (b.setWidth 4) t
    else .reject .malformed

/-! ### The encoder -/

/-- The frame image of a command (R60 to R63). -/
def encodeFrame (id : Byte) (c : Command) (params : ParamRecord) : List Byte :=
  Machine.assemble id (Machine.opcode c) (Machine.enc params)

/-- The transaction of an instruction. -/
def encode : Instr → List Byte
  | .ping id => encodeFrame id .ping .none
  | .readData id register length => encodeFrame id .readData (.read register length)
  | .writeData id register data => encodeFrame id .writeData (.write register data)
  | .regWrite id register data => encodeFrame id .regWrite (.write register data)
  | .action id => encodeFrame id .action .none
  | .reset id => encodeFrame id .reset .none
  | .syncWrite id register dataLength entries => encodeFrame id .syncWrite (.sync register dataLength entries)
  | .bulkRead id entries => encodeFrame id .bulkRead (.bulk entries)
  | .encode command params => 0x01#8 :: command :: encodeRecord params
  | .build id command params => 0x02#8 :: (encodeInt id ++ command :: encodeRecord params)
  | .checksum id length command paramBytes => 0x03#8 :: id :: length :: command :: paramBytes
  | .chkverify f => 0x04#8 :: f
  | .parse f => 0x05#8 :: f
  | .validate f expectedId expectedCommand => 0x06#8 :: expectedId :: expectedCommand :: f
  | .await id command timeoutMs => 0x07#8 :: id :: command :: bytesLE 4 timeoutMs.toNat
  | .cancel h => 0x08#8 :: bytesLE 2 h.toNat
  | .chunk f => 0x09#8 :: f
  | .tick => [0x0A#8]
  | .terr => [0x0B#8]
  | .hwreset => [0x0F#8]

/-! ### The words of spec/opcode_table.json -/

/-- The `k` bytes of the number `w`, most significant byte first, as R66 lays out the prefix word `W`. -/
def wordBytes : Nat → Nat → List Byte
  | 0, _ => []
  | k + 1, w => wordBytes k (w / 256) ++ [BitVec.ofNat 8 w]

/-- The transaction that a table word of `nbits` bits begins, its operands above the word all zero: as many zero bytes
(at most eight are ever needed) as complete it, a well-formed instruction preferred (log 12). -/
def tableBytes (nbits w : Nat) : List Byte :=
  let head := wordBytes ((nbits + 7) / 8) w
  let padded := (List.range 9).map fun k => head ++ List.replicate k 0x00#8
  let runs := fun t => match decode t with | .instr i => i.wellFormed | .reject _ => false
  let reads := fun t => match decode t with | .instr _ => true | .reject _ => false
  ((padded.find? runs).or (padded.find? reads)).getD head

/-- The instruction the decoder reads from a word of spec/opcode_table.json. -/
def decodeTableWord (nbits w : Nat) : Option Instr :=
  match decode (tableBytes nbits w) with
  | .instr i => some i
  | .reject _ => none

end Sys2Proof
end

