-- ==== Sys2Proof/Machine/Fetch.lean ====
section
/-! DEFINITION. Taking a transaction from the input port: how a rejected one stops the step, and how one is presented. -/

namespace Sys2Proof.Machine

/-- How a step stops on a transaction the decoder rejects: R73 and R68 name the refusals; bytes that are no transaction
of the port format are the model's own fault (log 9). -/
def rejected : Sys2Proof.DecodeError → Host.Outcome State Fault Refusal
  | .unknownOperation => .refused .unknownOperation
  | .unknownCommand => .refused .unknownCommand
  | .malformed => .fault .malformedTransaction

/-- `s` with transaction `t` presented next. -/
def present (s : State) (t : List Byte) : State := { s with input := t :: s.input }

end Sys2Proof.Machine
end

