-- ==== Sys2Proof/Machine/Step.lean ====
section
/-! DEFINITION. One step of the block: the next transaction the environment presents, decoded and executed (R50). -/

namespace Sys2Proof.Machine

/-- One step: with nothing presented the block is idle and nothing changes (R189); otherwise the first transaction is
taken and its instruction executed, or the step stops by name. -/
def step (s : State) : Host.Outcome State Fault Refusal :=
  match s.input with
  | [] => .next s
  | t :: rest =>
    match Sys2Proof.decode t with
    | .instr i => exec i { s with input := rest }
    | .reject e => rejected e

/-- `s` with the transaction of a word of spec/opcode_table.json as the next one presented (log 10, log 12). -/
def State.withFetchWord (s : State) (nbits w : Nat) : State := present s (Sys2Proof.tableBytes nbits w)

end Sys2Proof.Machine
end

