-- ==== Sys2Proof/Machine/Flags.lean ====
section
/-! DEFINITION. The block has no flags and no condition codes (R28). Its analogue of a status word is the outcome code
that R171 assigns to each kind for a hardware result port; no operation reads a code. -/

namespace Sys2Proof.Machine

/-- The code of a mismatch kind (R171). -/
def MismatchKind.code : MismatchKind → Byte
  | .header => 0x02#8
  | .id => 0x03#8
  | .length => 0x04#8
  | .command => 0x05#8
  | .checksum => 0x06#8

/-- The code of an error kind (R171). -/
def ErrorKind.code : ErrorKind → Byte
  | .invalidId => 0x01#8
  | .mismatch k => k.code
  | .timeout => 0x07#8
  | .transportError => 0x08#8
  | .cancelled => 0x09#8
  | .busy => 0x10#8
  | .notPending => 0x11#8

/-- The code of a terminal state (R171): Resolved is `0x00`, TimedOut has the code of Timeout (R22). -/
def Completion.code : Completion → Byte
  | .resolved _ => 0x00#8
  | .timedOut => ErrorKind.timeout.code
  | .rejected k => k.code
  | .cancelled => ErrorKind.cancelled.code

/-- The code of a result (R171): every value is `Ok`; with nothing reported there is no code. -/
def Result.code : Result → Option Byte
  | .none => Option.none
  | .paramBytes _ => some 0x00#8
  | .frame _ => some 0x00#8
  | .byte _ => some 0x00#8
  | .truth _ => some 0x00#8
  | .parsed _ => some 0x00#8
  | .payload _ => some 0x00#8
  | .handle _ => some 0x00#8
  | .ok => some 0x00#8
  | .error k => some k.code

/-- The code a realisation drives for a refused call (R171, R172); the host's own refusal has none. -/
def Refusal.code (r : Refusal) : Option Byte :=
  if r = .unknownCommand then some 0x20#8
  else if r = .variantMismatch then some 0x21#8
  else if r = .illFormedParams then some 0x22#8
  else if r = .paramTooLong then some 0x23#8
  else if r = .unknownOperation then some 0x24#8
  else none

end Sys2Proof.Machine
end

