-- ==== Sys2Proof/Machine/Pseudo.lean ====
section
/-! DEFINITION. The pseudo-operations of R72: what a caller presents for ping, set-id, move-to-position, read-position and
set-LED. They are outside the block and no operation depends on them; the register addresses are an argument (log 14).
Between the BUILD and the AWAIT of one expansion the caller passes the frame to the transport's `write` (R190).
DESIGN CHOICE (log 17), unsafe: an expansion presents its AWAIT whatever its BUILD reports. -/

namespace Sys2Proof.Machine.Pseudo

/-- The BUILD of a command for a device id. -/
def request (id : Byte) (c : Command) (params : ParamRecord) : Instr := .build (Int.ofNat id.toNat) (opcode c) params

/-- A 16-bit value as data bytes, low byte first (R45): `[v mod 256, v div 256]`. -/
def positionBytes (v : BitVec 16) : List Byte := [BitVec.ofNat 8 (v.toNat % 256), BitVec.ofNat 8 (v.toNat / 256)]

/-- A two-byte payload as a number (R45): `b0 + 256 * b1`. -/
def positionOf : List Byte → Option Nat
  | [b0, b1] => some (b0.toNat + 256 * b1.toNat)
  | _ => none

/-- `ping(id, t)`. The AWAIT follows even where the BUILD reports InvalidId (DESIGN CHOICE, log 17). -/
def ping (id : Byte) (t : Millis) : List Instr := [request id .ping .none, .await id (opcode .ping) t]

/-- `set-id(id, newId)`. -/
def setId (r : RegMap) (id newId : Byte) : List Instr := [request id .writeData (.write r.id [newId])]

/-- `move-to-position(id, pos)`. -/
def moveToPosition (r : RegMap) (id : Byte) (pos : BitVec 16) : List Instr :=
  [request id .writeData (.write r.goalPosition (positionBytes pos))]

/-- `read-position(id, t)`: its result is `positionOf` of the payload the expectation resolves with. The AWAIT follows even
where the BUILD reports InvalidId (DESIGN CHOICE, log 17). -/
def readPosition (r : RegMap) (id : Byte) (t : Millis) : List Instr :=
  [request id .readData (.read r.presentPosition 2#8), .await id (opcode .readData) t]

/-- `set-LED(id, on)`. -/
def setLed (r : RegMap) (id : Byte) (on : Bool) : List Instr :=
  [request id .writeData (.write r.led [if on then 1#8 else 0#8])]

end Sys2Proof.Machine.Pseudo
end

