-- ==== Sys2Proof/Machine/Script.lean ====
section
/-! DEFINITION. A sequence of operations and events: "the fold of their rules over the sequence, in order" (R50, R71). -/

namespace Sys2Proof.Machine

/-- The state after a sequence of operations and events (R50), or the first stop. -/
def execAll : List Instr → State → Host.Outcome State Fault Refusal
  | [], s => .next s
  | i :: is, s =>
    match exec i s with
    | .next t => execAll is t
    | .fault r => .fault r
    | .refused r => .refused r

end Sys2Proof.Machine
end

