-- ==== Sys2Proof/Safety.lean ====
section
/-! DEFINITION. What a safe state is: the invariants of R33, in the terms the statements use. -/

namespace Sys2Proof.Safety

open Sys2Proof.Machine

/-- R33 (1), R24: the capacity is respected. -/
def CapacityKept (s : State) : Prop := s.queue.length ≤ s.params.nExpect

/-- R33 (4), R142: every stored command is one of the eight opcodes. -/
def CommandsLegal (s : State) : Prop := ∀ e ∈ s.queue, ∃ c : Command, e.expCmd = opcode c

/-- R22: `Rejected(kind)` is reached with `kind = TransportError` only. -/
def RejectionsFromTransport (s : State) : Prop := ∀ d ∈ s.done, ∀ k, d.2 = .rejected k → k = .transportError

/-- R127: a payload has 0 to 252 bytes. -/
def PayloadsFit (s : State) : Prop := ∀ d ∈ s.done, ∀ p, d.2 = .resolved p → p.length ≤ 252

/-- The invariant of the block: it holds after reset and after every operation and event (R33). -/
structure StateInv (s : State) : Prop where
  params : s.params.legal = true
  capacity : CapacityKept s
  commands : CommandsLegal s
  rejections : RejectionsFromTransport s
  payloads : PayloadsFit s

/-- How many AWAITs have been accepted since the record was registered, modulo `2^16` (R23). -/
def age (s : State) (e : Expectation) : Nat := (s.nextHandle - e.handle).toNat

/-- R33 (2) and (3) where no pending record is older than the handle counter's range: the queue is ordered by
acceptance, oldest first, so that no two records share a handle (log 7). -/
def AcceptanceOrdered (s : State) : Prop :=
  s.queue.Pairwise (fun a b => age s b < age s a) ∧ ∀ e ∈ s.queue, 1 ≤ age s e

/-- `id`, `expId` and `expCmd` of a record, "read-only after AWAIT" (R21), without its counter. -/
def identity (e : Expectation) : Handle × Byte × Byte := (e.handle, e.expId, e.expCmd)

/-- The handle an instruction registers when it answers `t` from `s` (R23): a new record only where the queue grew. -/
def registered (s t : State) : List Handle := if s.queue.length < t.queue.length then [s.nextHandle] else []

/-- The records a TICK keeps, each with one TICK less (R148), written for the statements independently of the machine's
own definition. -/
def survivors (q : List Expectation) : List Expectation :=
  (q.filter fun e => decide (2 ≤ e.remaining.toNat)).map fun e =>
    { e with remaining := BitVec.ofNat 32 (e.remaining.toNat - 1) }

/-- The completions a TICK reports, oldest first (R148, R176). -/
def expiries (q : List Expectation) : List (Handle × Completion) :=
  (q.filter fun e => decide (e.remaining.toNat ≤ 1)).map fun e => (e.handle, .timedOut)

/-- The instructions that do not touch `S`: the six pure operations (R35) and the FRAME rows, which are BUILDs (log 4).
"Only AWAIT, CANCEL, CHUNK, TICK, TERR and HWRESET touch `S`" (R35). -/
def pureOperation : Instr → Bool
  | .ping _ => true
  | .readData _ _ _ => true
  | .writeData _ _ _ => true
  | .regWrite _ _ _ => true
  | .action _ => true
  | .reset _ => true
  | .syncWrite _ _ _ _ => true
  | .bulkRead _ _ => true
  | .encode _ _ => true
  | .build _ _ _ => true
  | .checksum _ _ _ _ => true
  | .chkverify _ => true
  | .parse _ => true
  | .validate _ _ _ => true
  | .await _ _ _ => false
  | .cancel _ => false
  | .chunk _ => false
  | .tick => false
  | .terr => false
  | .hwreset => false

/-- R110 over a byte sequence: the byte `(256 - (sum mod 256)) mod 256`, written for the statements independently of the
machine's own definition. -/
def negatedSum (l : List Byte) : Byte := BitVec.ofNat 8 ((256 - (l.map BitVec.toNat).sum % 256) % 256)

/-- R60 over its fields: `[0xFF, 0xFF, id, length, cmd, ...paramBytes, checksum]`, with the length byte as given, written
for the statements independently of the machine's own definition. -/
def frameOf (id length cmd : Byte) (paramBytes : List Byte) : List Byte :=
  0xFF#8 :: 0xFF#8 :: id :: length :: cmd :: (paramBytes ++ [negatedSum (id :: length :: cmd :: paramBytes)])

/-- The prefix word `W` of R66: the first five bytes, byte 0 most significant. -/
def prefixWord (f : List Byte) : BitVec 40 :=
  (byteAt f 0).setWidth 40 <<< 32 ||| (byteAt f 1).setWidth 40 <<< 24 ||| (byteAt f 2).setWidth 40 <<< 16
    ||| (byteAt f 3).setWidth 40 <<< 8 ||| (byteAt f 4).setWidth 40

/-- The checks of VALIDATE a sequence passes, each as the rules R123 to R126 put it. -/
def HeaderGood (f : List Byte) : Prop := ∃ r, f = 0xFF#8 :: 0xFF#8 :: r

/-- Check 2 (R123): the id byte exists and is the expected one. -/
def IdGood (f : List Byte) (id : Byte) : Prop := f[2]? = some id

/-- Check 3 (R124): `n >= 6` and `f[3] = n - 3` over the integers. -/
def LengthGood (f : List Byte) : Prop := 6 ≤ f.length ∧ ∃ l, f[3]? = some l ∧ l.toNat + 3 = f.length

/-- Check 4 (R125): the command byte is the expected one. -/
def CommandGood (f : List Byte) (cmd : Byte) : Prop := f[4]? = some cmd

/-- Check 5 (R126, R114): the bytes from index 2 on sum to a multiple of 256. -/
def ChecksumGood (f : List Byte) : Prop := ((f.drop 2).map BitVec.toNat).sum % 256 = 0

end Sys2Proof.Safety
end

