-- ==== Sys2Proof/Certificates/Slice0/Obligations.lean ====
section
/-! DEFINITION. The statements about the block, for the provers. `frameOf` and `negatedSum` (Safety.lean) are the frame of
R60 and the checksum of R110 written for the statements; the result port stands for "returns" (R28; log 5). -/

open Sys2Proof Sys2Proof.Machine Sys2Proof.Safety

/-! ### Encoding and the step -/

/-- Words written out from R63, R66 and R73 decode to their rows. The OP operand layout is the model's (log 3). -/
def Obligations.TableWordsDecodeToTheirRows : Prop :=
  decodeTableWord 40 0xFFFF000001 = some (.ping 0x00#8) ∧
  decodeTableWord 40 0xFFFF070083 = some (.syncWrite 0x07#8 0x00#8 0x00#8 []) ∧
  decodeTableWord 8 0xA = some .tick ∧
  decodeTableWord 8 0xC = none ∧
  decode [0xFF#8, 0xFF#8, 0x01#8, 0x05#8, 0x02#8, 0x38#8, 0x02#8, 0xBE#8] = .instr (.readData 0x01#8 0x38#8 0x02#8) ∧
  decode [0xFF#8, 0xFF#8, 0x01#8, 0x05#8, 0x03#8, 0x19#8, 0x01#8, 0xDD#8] =
    .instr (.writeData 0x01#8 0x19#8 [0x01#8]) ∧
  decode [0xFF#8, 0xFF#8, 0x03#8, 0x06#8, 0x92#8, 0x07#8, 0x05#8, 0x01#8, 0x58#8] =
    .instr (.bulkRead 0x03#8 [⟨0x07#8, 0x05#8, 0x01#8⟩]) ∧
  decode [0x07#8, 0x01#8, 0x01#8, 0x64#8, 0x00#8, 0x00#8, 0x00#8] = .instr (.await 0x01#8 0x01#8 100#32)

/-- Decoding the encoding of a well-formed instruction gives it back, every operand at every value. -/
def Obligations.DecodeOfEncodeReturnsTheInstruction : Prop :=
  ∀ i : Instr, i.wellFormed = true → decode (encode i) = .instr i

/-- R66: the frame of a command carries that command under the table's mask, whatever its id, length and parameters. -/
def Obligations.BuiltFramesMatchTheirTableRow : Prop :=
  ∀ (id : Int) (c : Command) (p : ParamRecord) (s t : State) (f : List Byte),
    exec (.build id (opcode c) p) s = .next t → t.result = .frame f →
      prefixWord f &&& 0xFFFF0000FF#40 = 0xFFFF000000#40 + (opcode c).setWidth 40

/-- R91 (derived there): two well-formed records of one variant with the same bytes are equal. -/
def Obligations.EncodingIsInjectivePerVariant : Prop :=
  ∀ p q : ParamRecord, variant p = variant q → wf p = true → wf q = true → enc p = enc q → p = q

/-- A step whose next transaction decodes to a well-formed instruction is that instruction executed on the state with the
transaction taken (the input port is the model's, log 2). -/
def Obligations.StepRunsTheDecodedInstruction : Prop :=
  ∀ (s : State) (t : List Byte) (rest : List (List Byte)) (i : Instr),
    s.input = t :: rest → decode t = .instr i → i.wellFormed = true → step s = exec i { s with input := rest }

/-- R189: with nothing presented the block is idle and nothing changes. -/
def Obligations.IdleStepChangesNothing : Prop :=
  ∀ s : State, s.input = [] → step s = .next s

/-- R73, R68: the four unassigned OPSEL values and a frame image with an illegal opcode are refused by name. -/
def Obligations.UnassignedCodesAreRefused : Prop :=
  (∀ (s : State) (b : Byte) (t : List Byte) (rest : List (List Byte)),
    s.input = (b :: t) :: rest → b = 0x00#8 ∨ b = 0x0C#8 ∨ b = 0x0D#8 ∨ b = 0x0E#8 →
      step s = .refused .unknownOperation) ∧
  (∀ (s : State) (id l cmd : Byte) (t : List Byte) (rest : List (List Byte)),
    s.input = (0xFF#8 :: 0xFF#8 :: id :: l :: cmd :: t) :: rest → (∀ c : Command, cmd ≠ opcode c) →
      step s = .refused .unknownCommand)

/-- R50: presenting well-formed operations and events one after another, one step each, is the fold of their rules over the
sequence, in order. The input port and the encodings of the operations are the model's (log 2, log 3). -/
def Obligations.PresentedScriptRunsInOrder : Prop :=
  ∀ (is : List Instr) (s t : State), (∀ i ∈ is, i.wellFormed = true) →
    execAll is { s with input := [] } = .next t →
      core.run is.length { s with input := is.map encode } = .next t

/-- R172: the refusals are exactly the calls outside the contract. An instruction answers a next state if it is well-formed,
from every state, and from no state if it is not. -/
def Obligations.WellFormedIsExactlyExecutable : Prop :=
  ∀ (i : Instr) (s : State), i.wellFormed = true ↔ ∃ t, exec i s = .next t

/-! ### The commands as frame images (log 4) -/

/-- R80, R84, R85: the commands without parameters build their six-byte frames. -/
def Obligations.ParameterlessCommandsBuildSixBytes : Prop :=
  ∀ (id : Byte) (s : State), id.toNat ≤ 253 →
    exec (.ping id) s = .next { s with result := .frame (frameOf id 0x03#8 0x01#8 []) } ∧
    exec (.action id) s = .next { s with result := .frame (frameOf id 0x03#8 0x05#8 []) } ∧
    exec (.reset id) s = .next { s with result := .frame (frameOf id 0x03#8 0x06#8 []) }

/-- R81 to R83: the read and write commands build frames of `[register, length]` and `[register] ++ data`. -/
def Obligations.ReadAndWriteCommandsBuildTheirFrames : Prop :=
  ∀ (id r : Byte) (s : State), id.toNat ≤ 253 →
    (∀ len : Byte, len = 1#8 ∨ len = 2#8 →
      exec (.readData id r len) s = .next { s with result := .frame (frameOf id 0x05#8 0x02#8 [r, len]) }) ∧
    (∀ a : Byte,
      exec (.writeData id r [a]) s = .next { s with result := .frame (frameOf id 0x05#8 0x03#8 [r, a]) } ∧
      exec (.regWrite id r [a]) s = .next { s with result := .frame (frameOf id 0x05#8 0x04#8 [r, a]) }) ∧
    (∀ a b : Byte,
      exec (.writeData id r [a, b]) s = .next { s with result := .frame (frameOf id 0x06#8 0x03#8 [r, a, b]) } ∧
      exec (.regWrite id r [a, b]) s = .next { s with result := .frame (frameOf id 0x06#8 0x04#8 [r, a, b]) })

/-- R86, R87: SYNC_WRITE and BULK_READ build frames of their entries in caller-supplied order. -/
def Obligations.SyncAndBulkCommandsBuildTheirFrames : Prop :=
  ∀ (id : Byte) (s : State), id.toNat ≤ 253 →
    (∀ (r dl : Byte) (es : List SyncEntry), (∀ e ∈ es, e.data.length = dl.toNat) → es.length * (1 + dl.toNat) ≤ 250 →
      exec (.syncWrite id r dl es) s = .next { s with
        result := .frame (frameOf id (BitVec.ofNat 8 (5 + es.length * (1 + dl.toNat))) 0x83#8
          ([r, dl] ++ (es.map fun e => [e.id] ++ e.data).flatten)) }) ∧
    (∀ es : List BulkEntry, es.length ≤ 84 →
      exec (.bulkRead id es) s = .next { s with
        result := .frame (frameOf id (BitVec.ofNat 8 (3 + 3 * es.length)) 0x92#8
          (es.map fun e => [e.id, e.register, e.length]).flatten) })

/-- R42, R101: a command image with the reserved id 254 or 255 builds nothing: InvalidId, for every well-formed command. -/
def Obligations.CommandsToReservedIdsReportInvalidId : Prop :=
  ∀ (id r : Byte) (s : State), id = 254#8 ∨ id = 255#8 →
    (∀ i ∈ [Instr.ping id, .action id, .reset id], exec i s = .next { s with result := .error .invalidId }) ∧
    (∀ len : Byte, len = 1#8 ∨ len = 2#8 → exec (.readData id r len) s = .next { s with result := .error .invalidId }) ∧
    (∀ data : List Byte, data.length = 1 ∨ data.length = 2 →
      exec (.writeData id r data) s = .next { s with result := .error .invalidId } ∧
      exec (.regWrite id r data) s = .next { s with result := .error .invalidId }) ∧
    (∀ (dl : Byte) (es : List SyncEntry), (∀ e ∈ es, e.data.length = dl.toNat) → es.length * (1 + dl.toNat) ≤ 250 →
      exec (.syncWrite id r dl es) s = .next { s with result := .error .invalidId }) ∧
    (∀ es : List BulkEntry, es.length ≤ 84 → exec (.bulkRead id es) s = .next { s with result := .error .invalidId })

/-- R90, R103 (decisions D9 and D8): a command image outside the record's domain is refused, whatever its id. -/
def Obligations.CommandsOutsideTheDataModelAreRefused : Prop :=
  ∀ (id r : Byte) (s : State),
    (∀ len : Byte, len ≠ 1#8 → len ≠ 2#8 → exec (.readData id r len) s = .refused .illFormedParams) ∧
    (∀ data : List Byte, data.length ≠ 1 → data.length ≠ 2 →
      exec (.writeData id r data) s = .refused .illFormedParams ∧
      exec (.regWrite id r data) s = .refused .illFormedParams) ∧
    (∀ (dl : Byte) (es : List SyncEntry), (∃ e ∈ es, e.data.length ≠ dl.toNat) →
      exec (.syncWrite id r dl es) s = .refused .illFormedParams) ∧
    (∀ (dl : Byte) (es : List SyncEntry), (∀ e ∈ es, e.data.length = dl.toNat) → 250 < es.length * (1 + dl.toNat) →
      exec (.syncWrite id r dl es) s = .refused .paramTooLong) ∧
    (∀ es : List BulkEntry, 84 < es.length → exec (.bulkRead id es) s = .refused .paramTooLong)

/-! ### ENCODE and BUILD -/

/-- R88: the tests of ENCODE in their order, and the bytes once all pass; nothing else changes. -/
def Obligations.EncodeFollowsItsAdmissionOrder : Prop :=
  ∀ (cmd : Byte) (p : ParamRecord) (s : State),
    ((∀ c : Command, cmd ≠ opcode c) → exec (.encode cmd p) s = .refused .unknownCommand) ∧
    (∀ c : Command, cmd = opcode c →
      (variant p ≠ variantOf c → exec (.encode cmd p) s = .refused .variantMismatch) ∧
      (variant p = variantOf c → wf p = false → exec (.encode cmd p) s = .refused .illFormedParams) ∧
      (variant p = variantOf c → wf p = true → exec (.encode cmd p) s = .next { s with result := .paramBytes (enc p) }))

/-- R80 to R87: the parameter bytes of each command, written out. -/
def Obligations.EncodeGivesTheBytesOfEachCommand : Prop :=
  ∀ s : State,
    (∀ cmd ∈ [0x01#8, 0x05#8, 0x06#8], exec (.encode cmd .none) s = .next { s with result := .paramBytes [] }) ∧
    (∀ r len : Byte, len = 1#8 ∨ len = 2#8 →
      exec (.encode 0x02#8 (.read r len)) s = .next { s with result := .paramBytes [r, len] }) ∧
    (∀ cmd ∈ [0x03#8, 0x04#8], ∀ (r : Byte) (data : List Byte), data.length = 1 ∨ data.length = 2 →
      exec (.encode cmd (.write r data)) s = .next { s with result := .paramBytes ([r] ++ data) }) ∧
    (∀ (r dl : Byte) (es : List SyncEntry), (∀ e ∈ es, e.data.length = dl.toNat) →
      exec (.encode 0x83#8 (.sync r dl es)) s =
        .next { s with result := .paramBytes ([r, dl] ++ (es.map fun e => [e.id] ++ e.data).flatten) }) ∧
    (∀ es : List BulkEntry,
      exec (.encode 0x92#8 (.bulk es)) s =
        .next { s with result := .paramBytes (es.map fun e => [e.id, e.register, e.length]).flatten })

/-- R60 to R63: for an admitted call with a legal id, BUILD gives header, id, `p + 3`, opcode, parameter bytes and
checksum, and changes nothing else. -/
def Obligations.BuildFollowsTheFrameFormat : Prop :=
  ∀ (id : Int) (c : Command) (p : ParamRecord) (s : State),
    variant p = variantOf c → wf p = true → p.paramLength ≤ 252 → 0 ≤ id → id ≤ 253 →
      exec (.build id (opcode c) p) s = .next { s with
        result := .frame (frameOf (BitVec.ofInt 8 id) (BitVec.ofNat 8 (p.paramLength + 3)) (opcode c) (enc p)) }

/-- R101: an id below 0 or above 253, over the integers, gives InvalidId, produces no bytes and changes nothing else. -/
def Obligations.BuildRejectsIdsOutsideTheRange : Prop :=
  ∀ (id : Int) (c : Command) (p : ParamRecord) (s : State),
    variant p = variantOf c → wf p = true → p.paramLength ≤ 252 →
      (id < 0 ∨ 253 < id → exec (.build id (opcode c) p) s = .next { s with result := .error .invalidId }) ∧
      (0 ≤ id → id ≤ 253 → ∃ f, exec (.build id (opcode c) p) s = .next { s with result := .frame f })

/-- R175: in BUILD the refusals come before the id test, and among admitted calls InvalidId is the only error; in AWAIT
UnknownCommand comes before Busy. -/
def Obligations.RefusalsComeBeforeErrors : Prop :=
  (∀ (id : Int) (cmd : Byte) (p : ParamRecord) (s : State), (∀ c : Command, cmd ≠ opcode c) →
    exec (.build id cmd p) s = .refused .unknownCommand) ∧
  (∀ (id : Int) (c : Command) (p : ParamRecord) (s : State), variant p ≠ variantOf c →
    exec (.build id (opcode c) p) s = .refused .variantMismatch) ∧
  (∀ (id : Int) (c : Command) (p : ParamRecord) (s : State), variant p = variantOf c → wf p = false →
    exec (.build id (opcode c) p) s = .refused .illFormedParams) ∧
  (∀ (id : Int) (c : Command) (p : ParamRecord) (s : State), variant p = variantOf c → wf p = true →
    252 < p.paramLength → exec (.build id (opcode c) p) s = .refused .paramTooLong) ∧
  (∀ (id : Int) (cmd : Byte) (p : ParamRecord) (s t : State) (k : ErrorKind),
    exec (.build id cmd p) s = .next t → t.result = .error k → k = .invalidId) ∧
  (∀ (id cmd : Byte) (ms : Millis) (s : State), (∀ c : Command, cmd ≠ opcode c) →
    exec (.await id cmd ms) s = .refused .unknownCommand)

/-- R102 (derived there), its seven guarantees of a frame BUILD returns. -/
def Obligations.BuiltFramesMeetTheirGuarantees : Prop :=
  ∀ (id : Int) (c : Command) (p : ParamRecord) (s t : State) (f : List Byte),
    exec (.build id (opcode c) p) s = .next t → t.result = .frame f →
      f.length = (enc p).length + 6 ∧
      (f[0]? = some 0xFF#8 ∧ f[1]? = some 0xFF#8 ∧ f[2]? = some (BitVec.ofInt 8 id) ∧
        (∃ l, f[3]? = some l ∧ l.toNat + 3 = f.length) ∧ f[4]? = some (opcode c)) ∧
      slice f 5 (f.length - 1) = enc p ∧
      chkverify f = true ∧
      (∀ v : Bool, validate v f (BitVec.ofInt 8 id) (opcode c) = .ok (enc p)) ∧
      (6 ≤ f.length ∧ f.length ≤ 258) ∧
      ((f.drop 2).map BitVec.toNat).sum % 256 = 0

/-- R120 (derived there): PARSE of a built frame returns the fields it was assembled from. -/
def Obligations.ParseInvertsBuild : Prop :=
  ∀ (id : Int) (c : Command) (p : ParamRecord) (s t u : State) (f : List Byte),
    exec (.build id (opcode c) p) s = .next t → t.result = .frame f →
      ∃ l k, l.toNat + 3 = f.length ∧ f[f.length - 1]? = some k ∧
        exec (.parse f) u = .next { u with result := .parsed (some
          { header := [0xFF#8, 0xFF#8], id := BitVec.ofInt 8 id, length := l, cmd := opcode c, params := enc p,
            checksum := k }) }

/-! ### The checksum -/

/-- R110: CHECKSUM returns `(256 - (sum mod 256)) mod 256` and changes nothing else. -/
def Obligations.ChecksumIsTheNormalisedNegatedSum : Prop :=
  ∀ (id l cmd : Byte) (pb : List Byte) (s : State), ∃ k : Byte,
    exec (.checksum id l cmd pb) s = .next { s with result := .byte k } ∧
    k.toNat = (256 - (id.toNat + l.toNat + cmd.toNat + (pb.map BitVec.toNat).sum) % 256) % 256

/-- R112: the result is 0 exactly when the sum is a multiple of 256. -/
def Obligations.ChecksumIsZeroExactlyOnFullSums : Prop :=
  ∀ (id l cmd : Byte) (pb : List Byte),
    checksum id l cmd pb = 0#8 ↔ (id.toNat + l.toNat + cmd.toNat + (pb.map BitVec.toNat).sum) % 256 = 0

/-- R113 (4) (derived there): the checksum depends on the multiset of summed bytes only: reordering the parameters, or
exchanging any of them with id, length or command, does not change it. -/
def Obligations.ChecksumDependsOnTheMultisetOnly : Prop :=
  ∀ (id l cmd id' l' cmd' : Byte) (pb pb' : List Byte),
    (id :: l :: cmd :: pb).Perm (id' :: l' :: cmd' :: pb') → checksum id l cmd pb = checksum id' l' cmd' pb'

/-- R113 (5) (derived there): with `id`, `length`, `command` and the parameters as one list of summed bytes, changing
exactly one of them changes the checksum; changing any two by `+d` and `-d` (modulo 256) does not. -/
def Obligations.ChecksumDetectsOneChangedByte : Prop :=
  ∀ (id l cmd id' l' cmd' : Byte) (pb pb' : List Byte),
    (∀ (a b : Byte) (pre post : List Byte), a ≠ b →
      id :: l :: cmd :: pb = pre ++ a :: post → id' :: l' :: cmd' :: pb' = pre ++ b :: post →
        checksum id l cmd pb ≠ checksum id' l' cmd' pb') ∧
    (∀ (a b d : Byte) (pre mid post : List Byte),
      id :: l :: cmd :: pb = pre ++ a :: (mid ++ b :: post) →
      id' :: l' :: cmd' :: pb' = pre ++ (a + d) :: (mid ++ (b - d) :: post) →
        checksum id l cmd pb = checksum id' l' cmd' pb')

/-- R111 (derived there): an accumulator of any width of 8 bits or more, wrapping on overflow, gives the same checksum. -/
def Obligations.AnyAccumulatorOfEightBitsSuffices : Prop :=
  ∀ (w : Nat) (id l cmd : Byte) (pb : List Byte), 8 ≤ w → checksumAcc w id l cmd pb = checksum id l cmd pb

/-- R114, R115: CHKVERIFY answers whether there are six bytes and those from index 2 on sum to a multiple of 256. -/
def Obligations.ChkverifyTestsTheWholeSum : Prop :=
  ∀ (f : List Byte) (s : State), ∃ v : Bool,
    exec (.chkverify f) s = .next { s with result := .truth v } ∧ (v = true ↔ 6 ≤ f.length ∧ ChecksumGood f)

/-! ### PARSE and VALIDATE -/

/-- R120 (decision D7 for short input): PARSE cuts by position alone, whatever the bytes are. -/
def Obligations.ParseCutsByPosition : Prop :=
  (∀ (h0 h1 id l cmd k : Byte) (pb : List Byte) (s : State),
    exec (.parse (h0 :: h1 :: id :: l :: cmd :: (pb ++ [k]))) s = .next { s with result := .parsed (some
      { header := [h0, h1], id := id, length := l, cmd := cmd, params := pb, checksum := k }) }) ∧
  (∀ (f : List Byte) (s : State), f.length < 6 → exec (.parse f) s = .next { s with result := .parsed none })

/-- R122, R174: VALIDATE reports the first failing check, or the payload `f[5..n-1)`, and changes nothing else. -/
def Obligations.ValidateReportsTheFirstFailingCheck : Prop :=
  ∀ (f : List Byte) (id cmd : Byte) (s : State),
    (¬ HeaderGood f → exec (.validate f id cmd) s = .next { s with result := .error (.mismatch .header) }) ∧
    (HeaderGood f → ¬ IdGood f id → exec (.validate f id cmd) s = .next { s with result := .error (.mismatch .id) }) ∧
    (HeaderGood f → IdGood f id → ¬ LengthGood f →
      exec (.validate f id cmd) s = .next { s with result := .error (.mismatch .length) }) ∧
    (HeaderGood f → IdGood f id → LengthGood f → ¬ CommandGood f cmd →
      exec (.validate f id cmd) s = .next { s with result := .error (.mismatch .command) }) ∧
    (HeaderGood f → IdGood f id → LengthGood f → CommandGood f cmd → s.params.verifyChecksum = true → ¬ ChecksumGood f →
      exec (.validate f id cmd) s = .next { s with result := .error (.mismatch .checksum) }) ∧
    (HeaderGood f → IdGood f id → LengthGood f → CommandGood f cmd →
      (s.params.verifyChecksum = true → ChecksumGood f) →
      exec (.validate f id cmd) s = .next { s with result := .payload (slice f 5 (f.length - 1)) })

/-- R127, R128: VALIDATE accepts exactly the frames of R60 for the expected id and command, and answers their parameters. -/
def Obligations.ValidateAcceptsExactlyGoodFrames : Prop :=
  ∀ (v : Bool) (f : List Byte) (id cmd : Byte) (pay : List Byte),
    validate v f id cmd = .ok pay ↔
      pay.length ≤ 252 ∧
        ∃ k, f = 0xFF#8 :: 0xFF#8 :: id :: BitVec.ofNat 8 (pay.length + 3) :: cmd :: (pay ++ [k]) ∧
          (v = true → f = frameOf id (BitVec.ofNat 8 (pay.length + 3)) cmd pay)

/-- R128 (derived there): one changed byte of a frame that validates with checksum verification gives the kind of its
field; without verification a changed parameter or checksum byte is accepted. -/
def Obligations.OneCorruptedFieldGivesItsKind : Prop :=
  ∀ (f : List Byte) (id cmd b : Byte) (pay : List Byte) (i : Nat),
    validate true f id cmd = .ok pay → (h : i < f.length) → b ≠ f[i] →
      (i ≤ 1 → ∀ v, validate v (f.set i b) id cmd = .err .header) ∧
      (i = 2 → ∀ v, validate v (f.set i b) id cmd = .err .id) ∧
      (i = 3 → ∀ v, validate v (f.set i b) id cmd = .err .length) ∧
      (i = 4 → ∀ v, validate v (f.set i b) id cmd = .err .command) ∧
      (5 ≤ i → validate true (f.set i b) id cmd = .err .checksum ∧
        validate false (f.set i b) id cmd = .ok (slice (f.set i b) 5 (f.length - 1)))

/-- R124 (derived there): a sequence shorter than 6 or longer than 258 bytes, and two frames joined, fail one of checks 1
to 3. -/
def Obligations.MissizedSequencesNeverValidate : Prop :=
  (∀ (v : Bool) (f : List Byte) (id cmd : Byte), f.length < 6 ∨ 258 < f.length →
    ∃ k ∈ [MismatchKind.header, .id, .length], validate v f id cmd = .err k) ∧
  (∀ (v w : Bool) (f g : List Byte) (id cmd id' cmd' : Byte) (pay : List Byte),
    validate w f id' cmd' = .ok pay → g ≠ [] → ∃ k ∈ [MismatchKind.id, .length], validate v (f ++ g) id cmd = .err k)

/-- R26 for VALIDATE and CHUNK: past 258 bytes only that the sequence is longer matters. The first 259 bytes decide, and of
two sequences longer than 258 bytes that agree in the first 258 neither byte 258 nor what follows tells them apart. PARSE
and CHKVERIFY, which look at the last byte of a sequence of any length, are not meant. -/
def Obligations.ValidateNeedsTheFirst259Bytes : Prop :=
  (∀ (v : Bool) (f : List Byte) (id cmd : Byte), validate v f id cmd = validate v (f.take 259) id cmd) ∧
  (∀ f g : List Byte, 258 < f.length → 258 < g.length → f.take 258 = g.take 258 →
    (∀ (v : Bool) (id cmd : Byte), validate v f id cmd = validate v g id cmd) ∧
    ∀ s : State, exec (.chunk f) s = exec (.chunk g) s)

/-- R35: every operation but AWAIT, CANCEL, CHUNK, TICK, TERR and HWRESET leaves everything but the result port (log 5) as
it was, and its result is a function of its operands and VERIFY_CHECKSUM. That a FRAME row is such an operation, a BUILD, is
the model's choice (log 4). -/
def Obligations.PureOperationsTouchNoState : Prop :=
  (∀ (i : Instr) (s t : State), pureOperation i = true → exec i s = .next t → t = { s with result := t.result }) ∧
  (∀ (i : Instr) (s s' t : State), pureOperation i = true → s.params.verifyChecksum = s'.params.verifyChecksum →
    exec i s = .next t → exec i s' = .next { s' with result := t.result })

/-! ### The correlator -/

/-- R143: AWAIT with a free place appends a record with the handle counter's value, advances the counter modulo `2^16` and
returns the handle; nothing else changes. -/
def Obligations.AwaitRegistersAnExpectation : Prop :=
  ∀ (id : Byte) (c : Command) (ms : Millis) (s : State), s.queue.length < s.params.nExpect →
    ∃ h', h'.toNat = (s.nextHandle.toNat + 1) % 2 ^ 16 ∧
      exec (.await id (opcode c) ms) s = .next { s with
        queue := s.queue ++ [{ handle := s.nextHandle, expId := id, expCmd := opcode c, remaining := ms }]
        nextHandle := h'
        result := .handle s.nextHandle }

/-- R144 (decision D3): AWAIT on a full queue returns Busy and changes nothing. -/
def Obligations.AwaitOnAFullQueueReportsBusy : Prop :=
  ∀ (id : Byte) (c : Command) (ms : Millis) (s : State), s.params.nExpect ≤ s.queue.length →
    exec (.await id (opcode c) ms) s = .next { s with result := .error .busy }

/-- R145, R25 (decision D16): with nothing pending a chunk, a TICK and a TERR change nothing. -/
def Obligations.EventsWithoutListenerChangeNothing : Prop :=
  ∀ (f : List Byte) (s : State), s.queue = [] →
    exec (.chunk f) s = .next s ∧ exec .tick s = .next s ∧ exec .terr s = .next s

/-- R146: a chunk that is a good frame for the head removes the head and reports its payload, in one step; the rest of the
queue keeps its counters and nothing else changes. -/
def Obligations.MatchingChunkResolvesTheHead : Prop :=
  ∀ (s : State) (e : Expectation) (q : List Expectation) (pay : List Byte) (k : Byte), s.queue = e :: q →
    pay.length ≤ 252 →
    (s.params.verifyChecksum = true →
      k = negatedSum (e.expId :: BitVec.ofNat 8 (pay.length + 3) :: e.expCmd :: pay)) →
    exec (.chunk (0xFF#8 :: 0xFF#8 :: e.expId :: BitVec.ofNat 8 (pay.length + 3) :: e.expCmd :: (pay ++ [k]))) s =
      .next { s with queue := q, done := s.done ++ [(e.handle, .resolved pay)] }

/-- R147 (decision D23 for the checksum kind): a chunk that fails a check against the head only adds the kind of its first
failing check to the diagnostic stream; the head stays pending with its counter. -/
def Obligations.MismatchingChunkIsSwallowed : Prop :=
  ∀ (s : State) (e : Expectation) (q : List Expectation) (f : List Byte), s.queue = e :: q →
    (¬ HeaderGood f → exec (.chunk f) s = .next { s with diag := s.diag ++ [(e.handle, .header)] }) ∧
    (HeaderGood f → ¬ IdGood f e.expId → exec (.chunk f) s = .next { s with diag := s.diag ++ [(e.handle, .id)] }) ∧
    (HeaderGood f → IdGood f e.expId → ¬ LengthGood f →
      exec (.chunk f) s = .next { s with diag := s.diag ++ [(e.handle, .length)] }) ∧
    (HeaderGood f → IdGood f e.expId → LengthGood f → ¬ CommandGood f e.expCmd →
      exec (.chunk f) s = .next { s with diag := s.diag ++ [(e.handle, .command)] }) ∧
    (HeaderGood f → IdGood f e.expId → LengthGood f → CommandGood f e.expCmd → s.params.verifyChecksum = true →
      ¬ ChecksumGood f → exec (.chunk f) s = .next { s with diag := s.diag ++ [(e.handle, .checksum)] })

/-- R177: only the head is tried: what a chunk does to the streams and whether it ends the head is the same whatever stands
behind the head, and what stands behind it is untouched. -/
def Obligations.ChunksTryTheHeadOnly : Prop :=
  ∀ (f : List Byte) (s : State) (e : Expectation), ∃ (ends : Bool) (dn : List (Handle × Completion))
    (dg : List (Handle × MismatchKind)), ∀ q : List Expectation,
      exec (.chunk f) { s with queue := e :: q } =
        .next { s with queue := if ends then q else e :: q, done := dn, diag := dg }

/-- R148, R176 (decisions D4, D18): a TICK ends every record with `remaining <= 1`, oldest first, takes one from every other,
and changes nothing else. -/
def Obligations.TickCountsDownOrExpires : Prop :=
  ∀ s : State, exec .tick s = .next { s with queue := survivors s.queue, done := s.done ++ expiries s.queue }

/-- R149 (decision D6): CANCEL of a pending handle ends one record with that handle, head or not, keeps the order of the
others, reports Cancelled and returns Ok. Which record, where several share the handle, is free (log 6); with one record
the model's choice counter does not move. -/
def Obligations.CancelEndsOnePendingExpectation : Prop :=
  ∀ (h : Handle) (s : State), (∃ e ∈ s.queue, e.handle = h) →
    ∃ pre e post n, s.queue = pre ++ e :: post ∧ e.handle = h ∧
      exec (.cancel h) s = .next { s with
        queue := pre ++ post, done := s.done ++ [(h, .cancelled)], result := .ok, freeIdx := n } ∧
      ((∀ x ∈ pre ++ post, x.handle ≠ h) → n = s.freeIdx)

/-- R149 (decision D29): CANCEL of a handle that is not pending returns NotPending and changes nothing. -/
def Obligations.CancelOfNoPendingHandleIsHarmless : Prop :=
  ∀ (h : Handle) (s : State), (∀ e ∈ s.queue, e.handle ≠ h) →
    exec (.cancel h) s = .next { s with result := .error .notPending }

/-- R150 (decision D26): TERR rejects every pending expectation, oldest first, and changes nothing else. -/
def Obligations.TransportErrorRejectsEveryExpectation : Prop :=
  ∀ s : State, exec .terr s = .next { s with
    queue := [], done := s.done ++ s.queue.map fun e => (e.handle, .rejected .transportError) }

/-- R200, R201 (decision D14): HWRESET empties the queue and both streams without any completion, restarts the handles and
keeps the parameters; the model's ports: the result port is cleared (log 5), the transactions still presented stay (log 11). -/
def Obligations.HardwareResetClearsTheBlock : Prop :=
  ∀ s : State, exec .hwreset s = .next
    { queue := [], nextHandle := 0#16, done := [], diag := [], params := s.params, input := s.input, result := .none,
      freeIdx := s.freeIdx }

/-- R34: the reset state, for every value of the parameters. -/
def Obligations.ResetStateIsEmpty : Prop :=
  ∀ p : Params, (State.resetWith p).queue = [] ∧ (State.resetWith p).nextHandle = 0#16 ∧ (State.resetWith p).done = [] ∧
    (State.resetWith p).diag = [] ∧ (State.resetWith p).params = p ∧ (State.resetWith p).listening = false

/-! ### Whole-machine properties -/

/-- The invariant holds at reset, for every legal value of the parameters. -/
def Obligations.InvariantHoldsAtReset : Prop :=
  StateInv State.reset ∧ ∀ p : Params, p.legal = true → StateInv (State.resetWith p)

/-- R33, R22, R127: every step keeps the invariant: legal parameters, the capacity, legal stored opcodes, rejections by
TransportError only, payloads of at most 252 bytes. -/
def Obligations.EveryStepKeepsTheInvariant : Prop :=
  ∀ s t : State, StateInv s → step s = .next t → StateInv t

/-- R29: no instruction writes a parameter; R30, R31, R33 (5): the streams only grow, except by HWRESET. -/
def Obligations.ParametersStayAndStreamsOnlyGrow : Prop :=
  ∀ (i : Instr) (s t : State), exec i s = .next t →
    t.params = s.params ∧ (i ≠ .hwreset → (∃ d, t.done = s.done ++ d) ∧ ∃ g, t.diag = s.diag ++ g)

/-- R21, R24, R33 (3): records are never rewritten but for their counter and never overtake each other: the queue after an
instruction is the queue before it, some records gone, and at most one new record at the tail, whose handle is the counter. -/
def Obligations.QueueKeepsIdentitiesInOrder : Prop :=
  ∀ (i : Instr) (s t : State), exec i s = .next t →
    ((t.queue.map identity).Sublist (s.queue.map identity)) ∨
      ∃ id c ms, i = .await id c ms ∧
        t.queue = s.queue ++ [{ handle := s.nextHandle, expId := id, expCmd := c, remaining := ms }]

/-- R30, R151: every expectation ends exactly once, in the step that reports it. But for HWRESET, the handles pending before
an instruction together with the one it registers are, as a multiset, those pending after it together with those its new
completions report. -/
def Obligations.EveryExpectationEndsExactlyOnce : Prop :=
  ∀ (i : Instr) (s t : State), i ≠ .hwreset → exec i s = .next t →
    ∃ ended : List (Handle × Completion), t.done = s.done ++ ended ∧
      (s.queue.map (·.handle) ++ registered s t).Perm (t.queue.map (·.handle) ++ ended.map (·.1))

/-- R148 (derived there): an expectation registered with `timeoutMs = r`, left alone, is pending with its counter run down
before the `max(r, 1)`-th TICK and is reported TimedOut at it. -/
def Obligations.ExpectationTimesOutAtItsDeadline : Prop :=
  ∀ (s : State) (e : Expectation) (pre post : List Expectation), s.queue = pre ++ e :: post →
    (∀ n, n < max e.remaining.toNat 1 → ∃ t, execAll (List.replicate n .tick) s = .next t ∧
      { e with remaining := BitVec.ofNat 32 (e.remaining.toNat - n) } ∈ t.queue) ∧
    (∃ t u d, execAll (List.replicate (max e.remaining.toNat 1 - 1) .tick) s = .next t ∧ exec .tick t = .next u ∧
      u.done = t.done ++ d ∧ (e.handle, Completion.timedOut) ∈ d)

/-- R153 (derived there): the head of the queue, through any operations and events with fewer than `max(remaining, 1)` TICKs
in which no chunk matches it and neither its CANCEL, TERR nor HWRESET occurs, is still the head, its counter down by the
number of TICKs; the first matching chunk then resolves it with its payload, and the next exhausting TICK times it out. -/
def Obligations.HeadEndsByTheFirstMatchOrItsDeadline : Prop :=
  ∀ (is : List Instr) (s t : State) (e : Expectation) (q : List Expectation), s.queue = e :: q →
    execAll is s = .next t →
    is.count .tick < max e.remaining.toNat 1 →
    (∀ i ∈ is, i ≠ .terr ∧ i ≠ .hwreset ∧ i ≠ .cancel e.handle ∧
      ∀ f, i = .chunk f → ∀ pay, validate s.params.verifyChecksum f e.expId e.expCmd ≠ .ok pay) →
    ∃ q', t.queue = { e with remaining := BitVec.ofNat 32 (e.remaining.toNat - is.count .tick) } :: q' ∧
      (∀ f pay, validate s.params.verifyChecksum f e.expId e.expCmd = .ok pay →
        exec (.chunk f) t = .next { t with queue := q', done := t.done ++ [(e.handle, .resolved pay)] }) ∧
      (is.count .tick + 1 = max e.remaining.toNat 1 →
        ∃ u d, exec .tick t = .next u ∧ u.done = t.done ++ (e.handle, .timedOut) :: d)

/-- R178 (decision D25): a chunk that matches the head and the TICK that exhausts it are possible in both orders, with
different outcomes. CHUNK first: the head is Resolved and the TICK is one over the records behind it. TICK first: the head is
TimedOut, and the chunk is dropped or offered to the next head that is left. -/
def Obligations.SimultaneousChunkAndTickAdmitBothOrders : Prop :=
  ∀ (s : State) (e : Expectation) (q : List Expectation) (f pay : List Byte), s.queue = e :: q → e.remaining.toNat ≤ 1 →
    validate s.params.verifyChecksum f e.expId e.expCmd = .ok pay →
      execAll [.chunk f, .tick] s = .next { s with
        queue := survivors q, done := s.done ++ (e.handle, .resolved pay) :: expiries q } ∧
      (survivors q = [] → execAll [.tick, .chunk f] s = .next { s with
        queue := [], done := s.done ++ (e.handle, .timedOut) :: expiries q }) ∧
      (∀ n q', survivors q = n :: q' →
        (∀ p, validate s.params.verifyChecksum f n.expId n.expCmd = .ok p →
          execAll [.tick, .chunk f] s = .next { s with
            queue := q', done := s.done ++ (e.handle, .timedOut) :: expiries q ++ [(n.handle, .resolved p)] }) ∧
        (∀ k, validate s.params.verifyChecksum f n.expId n.expCmd = .err k →
          execAll [.tick, .chunk f] s = .next { s with
            queue := n :: q', done := s.done ++ (e.handle, .timedOut) :: expiries q, diag := s.diag ++ [(n.handle, k)] }))

/-- R205 (derived there): a request frame validates as its own response: from an empty queue, AWAIT of its id and command,
then the built frame as a chunk, resolves the expectation with the request's own parameter bytes. -/
def Obligations.BuiltRequestResolvesItsOwnExpectation : Prop :=
  ∀ (id : Byte) (c : Command) (p : ParamRecord) (ms : Millis) (s t : State) (f : List Byte),
    exec (.build (Int.ofNat id.toNat) (opcode c) p) s = .next t → t.result = .frame f → s.queue = [] →
      s.params.legal = true →
      ∃ u, execAll [.await id (opcode c) ms, .chunk f] s = .next u ∧ u.queue = [] ∧
        u.done = s.done ++ [(s.nextHandle, .resolved (enc p))]

/-- R23, R33 (2), (3) where the handle counter does not run past a pending record: acceptance order, and with it distinct
handles, is kept by every instruction, provided an accepted AWAIT finds no record 65535 AWAITs old (log 7). -/
def Obligations.AcceptanceOrderIsKeptUntilTheCounterWraps : Prop :=
  (∀ (i : Instr) (s t : State), AcceptanceOrdered s → (∀ e ∈ s.queue, age s e < 65535) → exec i s = .next t →
    AcceptanceOrdered t) ∧
  (∀ s : State, AcceptanceOrdered s → (s.queue.map (·.handle)).Nodup)

/-- R23's derived claim that pending handles "are pairwise distinct at all times" does not follow from R143 and R149 when
N_EXPECT is 2 or more: some presented sequence leads from reset to two pending records with one handle (log 7). -/
def Obligations.HandlesCanCollideWithTwoPlaces : Prop :=
  ∃ (is : List Instr) (t : State),
    execAll is (State.resetWith { verifyChecksum := true, nExpect := 2 }) = .next t ∧
      ∃ a b, t.queue = [a, b] ∧ a.handle = b.handle

/-- R171 (decision D12): different error kinds, and different refusals, have different codes. -/
def Obligations.OutcomeCodesTellKindsApart : Prop :=
  (∀ j k : ErrorKind, j.code = k.code → j = k) ∧
  (∀ (j k : Refusal) (n : Byte), j.code = some n → k.code = some n → j = k) ∧
  (∀ (k : ErrorKind) (r : Refusal), some k.code ≠ r.code)

/-- R45, R72 (decision D27): move-to-position presents the position low byte first, and reading those two bytes back as a
payload gives the position. -/
def Obligations.PositionsTravelLowByteFirst : Prop :=
  ∀ (r : RegMap) (id : Byte) (pos : BitVec 16) (s : State), id.toNat ≤ 253 →
    ∃ b0 b1 : Byte, b0.toNat + 256 * b1.toNat = pos.toNat ∧ Pseudo.positionOf [b0, b1] = some pos.toNat ∧
      execAll (Pseudo.moveToPosition r id pos) s =
        .next { s with result := .frame (frameOf id 0x06#8 0x03#8 [r.goalPosition, b0, b1]) }

/-- R178, its last sentence (decision D25): a matching chunk against a TERR, against the CANCEL of the head, and against the
AWAIT it answers: both orders are possible and the first decides. -/
def Obligations.SimultaneousChunkAndOperationAdmitBothOrders : Prop :=
  (∀ (s : State) (e : Expectation) (q : List Expectation) (f pay : List Byte), s.queue = e :: q →
    validate s.params.verifyChecksum f e.expId e.expCmd = .ok pay →
      (execAll [.chunk f, .terr] s = .next { s with
          queue := []
          done := s.done ++ (e.handle, .resolved pay) :: q.map fun x => (x.handle, .rejected .transportError) } ∧
        execAll [.terr, .chunk f] s = .next { s with
          queue := [], done := s.done ++ (e :: q).map fun x => (x.handle, .rejected .transportError) }) ∧
      ((∀ x ∈ q, x.handle ≠ e.handle) →
        execAll [.chunk f, .cancel e.handle] s = .next { s with
          queue := q, done := s.done ++ [(e.handle, .resolved pay)], result := .error .notPending } ∧
        execAll [.cancel e.handle, .chunk f] s = exec (.chunk f) { s with
          queue := q, done := s.done ++ [(e.handle, .cancelled)], result := .ok })) ∧
  (∀ (s : State) (id : Byte) (c : Command) (ms : Millis) (f pay : List Byte), s.queue = [] → 1 ≤ s.params.nExpect →
    validate s.params.verifyChecksum f id (opcode c) = .ok pay →
      execAll [.chunk f, .await id (opcode c) ms] s = .next { s with
        queue := [{ handle := s.nextHandle, expId := id, expCmd := opcode c, remaining := ms }]
        nextHandle := s.nextHandle + 1#16
        result := .handle s.nextHandle } ∧
      execAll [.await id (opcode c) ms, .chunk f] s = .next { s with
        nextHandle := s.nextHandle + 1#16
        done := s.done ++ [(s.nextHandle, .resolved pay)]
        result := .handle s.nextHandle })
end

