-- ==== Sys2Proof/Laws/Frame.lean ====
section
/-! SUPPORT. The checksum, the shape of an assembled frame, and what the validator and the parser say of a frame given by
its fields. -/

namespace Sys2Proof.Machine

/-! ### Sums and the checksum -/

@[simp] theorem sumBytes_nil : sumBytes [] = 0 := rfl
@[simp] theorem sumBytes_cons (b : Byte) (t : List Byte) : sumBytes (b :: t) = b.toNat + sumBytes t := rfl

@[simp] theorem sumBytes_append (s t : List Byte) : sumBytes (s ++ t) = sumBytes s + sumBytes t := by
  induction s with
  | nil => simp
  | cons b s ih => simp [ih]; omega

theorem sumBytes_eq_sum (s : List Byte) : sumBytes s = (s.map fun b => b.toNat).sum := by
  induction s with
  | nil => rfl
  | cons b s ih => simp [ih]

theorem sumBytes_perm {s t : List Byte} (h : s.Perm t) : sumBytes s = sumBytes t := by
  rw [sumBytes_eq_sum, sumBytes_eq_sum]
  exact (h.map _).sum_eq

/-- The value of the checksum (R110). -/
theorem checksum_toNat (id length cmd : Byte) (pb : List Byte) :
    (checksum id length cmd pb).toNat
      = (256 - (id.toNat + length.toNat + cmd.toNat + sumBytes pb) % 256) % 256 := by
  simp only [checksum, BitVec.toNat_ofNat]; omega

/-- The checksum is the byte that brings the sum to a multiple of 256 (R113 (2)). -/
theorem eq_checksum_iff (id length cmd b : Byte) (pb : List Byte) :
    b = checksum id length cmd pb ↔ (id.toNat + length.toNat + cmd.toNat + sumBytes pb + b.toNat) % 256 = 0 := by
  rw [← BitVec.toNat_inj, checksum_toNat]
  have := b.isLt
  omega

/-! ### Positions of a frame given by its fields -/

section fields
variable (h0 h1 id l c k : Byte) (p : List Byte)

@[simp] theorem byteAt_zero (s : List Byte) : byteAt (h0 :: s) 0 = h0 := rfl
@[simp] theorem byteAt_succ (s : List Byte) (n : Nat) : byteAt (h0 :: s) (n + 1) = byteAt s n := rfl

theorem byteAt_append_length (s : List Byte) : byteAt (s ++ [k]) s.length = k := by
  induction s with
  | nil => rfl
  | cons b s ih => simpa using ih

theorem slice_payload :
    slice (h0 :: h1 :: id :: l :: c :: (p ++ [k])) 5 ((h0 :: h1 :: id :: l :: c :: (p ++ [k])).length - 1) = p := by
  simp [slice]

theorem byteAt_last :
    byteAt (h0 :: h1 :: id :: l :: c :: (p ++ [k])) ((h0 :: h1 :: id :: l :: c :: (p ++ [k])).length - 1) = k := by
  have : (h0 :: h1 :: id :: l :: c :: (p ++ [k])).length - 1 = p.length + 5 := by simp
  rw [this]
  exact byteAt_append_length k p

/-- CHKVERIFY of a sequence given by its fields. -/
theorem chkverify_fields :
    chkverify (h0 :: h1 :: id :: l :: c :: (p ++ [k])) = decide (k = checksum id l c p) := by
  rw [chkverify, if_neg (by simp), slice_payload, byteAt_last]
  simp only [byteAt_succ, byteAt_zero, beq_eq_decide]
  exact decide_eq_decide.2 eq_comm

/-- PARSE of a sequence given by its fields. -/
theorem parse_fields : parse (h0 :: h1 :: id :: l :: c :: (p ++ [k])) =
    some { header := [h0, h1], id := id, length := l, cmd := c, params := p, checksum := k } := by
  rw [parse, if_neg (by simp), slice_payload, byteAt_last]
  rfl

end fields

/-- A sequence of at least six bytes, by its fields. -/
theorem exists_fields {f : List Byte} (h : 6 ≤ f.length) :
    ∃ h0 h1 id l c p k, f = h0 :: h1 :: id :: l :: c :: (p ++ [k]) := by
  match f, h with
  | h0 :: h1 :: id :: l :: c :: t, h =>
    have ht : t ≠ [] := by rintro rfl; simp at h
    exact ⟨h0, h1, id, l, c, t.dropLast, t.getLast ht, by rw [List.dropLast_append_getLast ht]⟩

/-! ### Frame assembly -/

theorem assemble_eq (id c : Byte) (p : List Byte) :
    assemble id c p = 0xFF#8 :: 0xFF#8 :: id :: lengthByte p :: c :: (p ++ [checksum id (lengthByte p) c p]) := by
  simp [assemble]

@[simp] theorem length_assemble (id c : Byte) (p : List Byte) : (assemble id c p).length = p.length + 6 := by
  simp [assemble_eq]

theorem lengthByte_toNat {p : List Byte} (h : p.length ≤ 252) : (lengthByte p).toNat = p.length + 3 := by
  simp only [lengthByte, BitVec.toNat_ofNat, Config.lenOverhead]; omega

/-! ### VALIDATE -/

/-- What each check of VALIDATE found, in order (R122); `ok` names the fields of the frame (R127). -/
theorem validate_ok_iff (v : Bool) (f : List Byte) (id cmd : Byte) (pay : List Byte) :
    validate v f id cmd = .ok pay ↔
      ∃ l k, f = 0xFF#8 :: 0xFF#8 :: id :: l :: cmd :: (pay ++ [k]) ∧ l.toNat = pay.length + 3 ∧
        (v = true → k = checksum id l cmd pay) := by
  constructor
  · intro h
    unfold validate at h
    split at h <;> [cases h; skip]
    rename_i h1
    split at h <;> [cases h; skip]
    rename_i h2
    split at h <;> [cases h; skip]
    rename_i h3
    split at h <;> [cases h; skip]
    rename_i h4
    split at h <;> [cases h; skip]
    rename_i h5
    simp only [not_not] at h1 h2 h3 h4
    obtain ⟨a0, a1, a2, l, c, p, k, rfl⟩ := exists_fields (f := f) h3.1
    rw [slice_payload] at h
    cases h
    simp only [byteAt_zero, byteAt_succ] at h1 h2 h3 h4
    obtain ⟨-, rfl, rfl⟩ := h1
    obtain ⟨-, rfl⟩ := h2
    subst h4
    refine ⟨l, k, rfl, ?_, fun hv => ?_⟩
    · have := h3.2; simp at this; omega
    · rw [chkverify_fields] at h5
      simpa [hv] using h5
  · rintro ⟨l, k, rfl, hl, hk⟩
    unfold validate
    rw [slice_payload, chkverify_fields]
    simp only [byteAt_zero, byteAt_succ, decide_eq_true_eq]
    rw [if_neg (by simp), if_neg (by simp), if_neg (by simp; omega), if_neg (by simp), if_neg]
    rintro ⟨hv, hn⟩
    exact hn (hk hv)

/-- Every verdict is one of the two. -/
theorem validate_cases (v : Bool) (f : List Byte) (id cmd : Byte) :
    (∃ pay, validate v f id cmd = .ok pay) ∨ ∃ k, validate v f id cmd = .err k := by
  cases h : validate v f id cmd with
  | ok p => exact .inl ⟨p, rfl⟩
  | err k => exact .inr ⟨k, rfl⟩

/-- A payload has at most 252 bytes (R127). -/
theorem validate_ok_length {v : Bool} {f : List Byte} {id cmd : Byte} {pay : List Byte}
    (h : validate v f id cmd = .ok pay) : pay.length ≤ 252 := by
  obtain ⟨l, k, -, hl, -⟩ := (validate_ok_iff v f id cmd pay).1 h
  have := l.isLt
  omega

/-- An assembled frame validates against its own id and command, for either value of VERIFY_CHECKSUM (R102 (5)). -/
theorem validate_assemble (v : Bool) (id c : Byte) {p : List Byte} (h : p.length ≤ 252) :
    validate v (assemble id c p) id c = .ok p :=
  (validate_ok_iff ..).2 ⟨_, _, assemble_eq id c p, lengthByte_toNat h, fun _ => rfl⟩

end Sys2Proof.Machine
end

