-- ==== Sys2Proof/Laws/Operands.lean ====
section
/-! SUPPORT. CommandSchema: the opcode map, admission of a call, and the length of an encoding. -/

namespace Sys2Proof.Machine

@[simp] theorem commandOf_opcode (c : Command) : commandOf (opcode c) = some c := by cases c <;> rfl

theorem opcode_of_commandOf {b : Byte} {c : Command} (h : commandOf b = some c) : opcode c = b := by
  have := List.find?_some h
  simpa using this

theorem commandOf_eq_some_iff {b : Byte} {c : Command} : commandOf b = some c ↔ opcode c = b :=
  ⟨opcode_of_commandOf, fun h => h ▸ commandOf_opcode c⟩

theorem opcode_injective : Function.Injective opcode := fun a b h => by
  have := congrArg commandOf h
  simpa using this

/-- The table of required variants (R63) says what the opcode map and `variantOf` say together. -/
theorem requiredVariant_eq (b : Byte) : requiredVariant b = (commandOf b).map variantOf := by
  revert b; decide

/-- What `checkCall` accepts, in one line. -/
theorem checkCall_ok_iff {b : Byte} {p : ParamRecord} {c : Command} :
    checkCall b p = .ok c ↔ opcode c = b ∧ variant p = variantOf c ∧ wf p = true := by
  unfold checkCall
  cases h : commandOf b with
  | none =>
    constructor
    · intro h'; cases h'
    · rintro ⟨h', -⟩; rw [← h', commandOf_opcode] at h; cases h
  | some d =>
    have hd := opcode_of_commandOf h
    simp only
    split
    · constructor
      · intro h'; cases h'
      · rintro ⟨h', hv, -⟩
        have : d = c := opcode_injective (hd.trans h'.symm)
        subst this; contradiction
    · split
      · constructor
        · intro h'; cases h'; exact ⟨hd, by simp_all, ‹_›⟩
        · rintro ⟨h', -⟩; rw [opcode_injective (hd.trans h'.symm)]
      · constructor
        · intro h'; cases h'
        · rintro ⟨-, -, h'⟩; contradiction

@[simp] theorem checkCall_opcode (c : Command) (p : ParamRecord) (hv : variant p = variantOf c) (hw : wf p = true) :
    checkCall (opcode c) p = .ok c := checkCall_ok_iff.2 ⟨rfl, hv, hw⟩

theorem length_flatMap_encBulkEntry (es : List BulkEntry) : (es.flatMap encBulkEntry).length = 3 * es.length := by
  induction es with
  | nil => rfl
  | cons e es ih => simp [encBulkEntry, ih]; omega

theorem length_flatMap_encSyncEntry {d : Nat} (es : List SyncEntry) (h : ∀ e ∈ es, e.data.length = d) :
    (es.flatMap encSyncEntry).length = es.length * (1 + d) := by
  induction es with
  | nil => simp
  | cons e es ih =>
    have he : e.data.length = d := h e (by simp)
    simp [encSyncEntry, ih fun x hx => h x (by simp [hx]), he]
    ring

/-- The length of an encoding is `p` of R63. -/
theorem length_enc {p : ParamRecord} (h : wf p = true) : (enc p).length = p.paramLength := by
  cases p with
  | none => rfl
  | read r l => rfl
  | write r d => simp [enc, ParamRecord.paramLength]; omega
  | sync r dl es =>
    have := length_flatMap_encSyncEntry (d := dl.toNat) es (by simpa [wf] using h)
    simp only [enc, List.length_cons, ParamRecord.paramLength, this]; omega
  | bulk es => exact length_flatMap_encBulkEntry es

/-- A call is well-formed exactly when `checkCall` accepts it. -/
theorem callWellFormed_iff {b : Byte} {p : ParamRecord} :
    callWellFormed b p = true ↔ ∃ c, checkCall b p = .ok c := by
  simp only [callWellFormed, checkCall_ok_iff, requiredVariant_eq, Bool.and_eq_true, beq_iff_eq]
  constructor
  · rintro ⟨h, hw⟩
    obtain ⟨c, hc, hv⟩ := Option.map_eq_some_iff.1 h
    exact ⟨c, opcode_of_commandOf hc, hv.symm, hw⟩
  · rintro ⟨c, rfl, hv, hw⟩
    simp [hv, hw]

end Sys2Proof.Machine
end

