-- ==== Sys2Proof/Laws/Decode.lean ====
section
/-! SUPPORT. The operand codecs of the port: each decoder reads back what its encoder writes. -/

namespace Sys2Proof

/-! ### Numbers -/

theorem decodeNat_replicate (k : Nat) (b : Byte) (hb : b ≠ 0xFF#8) (t : List Byte) :
    decodeNat (List.replicate k 0xFF#8 ++ b :: t) = some (255 * k + b.toNat, t) := by
  induction k with
  | zero => simp [decodeNat, hb]
  | succ k ih => simp [List.replicate_succ, decodeNat, ih]; omega

@[simp] theorem decodeNat_encodeNat (n : Nat) (t : List Byte) : decodeNat (encodeNat n ++ t) = some (n, t) := by
  have hlt : n % 255 < 255 := Nat.mod_lt _ (by omega)
  have hval : (BitVec.ofNat 8 (n % 255)).toNat = n % 255 := by simp; omega
  have hne : BitVec.ofNat 8 (n % 255) ≠ 0xFF#8 := by
    intro h; have := congrArg BitVec.toNat h; rw [hval] at this; simp at this; omega
  have := decodeNat_replicate (n / 255) _ hne t
  rw [hval, Nat.div_add_mod] at this
  simpa [encodeNat] using this

@[simp] theorem decodeInt_encodeInt (n : Int) (t : List Byte) : decodeInt (encodeInt n ++ t) = some (n, t) := by
  cases n <;> simp [encodeInt, decodeInt]

@[simp] theorem length_bytesLE (k v : Nat) : (bytesLE k v).length = k := by
  induction k generalizing v with
  | zero => rfl
  | succ k ih => simp [bytesLE, ih]

theorem valueLE_bytesLE (k v : Nat) : valueLE (bytesLE k v) = v % 256 ^ k := by
  induction k generalizing v with
  | zero => simp [bytesLE, valueLE, Nat.mod_one]
  | succ k ih =>
    rw [bytesLE, valueLE, ih, pow_succ', Nat.mod_mul]
    simp

/-! ### Parameter records -/

@[simp] theorem decodeBulk_flatMap (es : List BulkEntry) : decodeBulk (es.flatMap Machine.encBulkEntry) = some es := by
  induction es with
  | nil => rfl
  | cons e es ih => simp [Machine.encBulkEntry] at ih ⊢; simp [decodeBulk, ih]

theorem length_le_encodePortEntries (es : List SyncEntry) : es.length ≤ (encodePortEntries es).length := by
  induction es with
  | nil => simp
  | cons e es ih => simp [encodePortEntries] at ih ⊢; omega

theorem decodePortEntries_encodePortEntries (es : List SyncEntry) (fuel : Nat) (h : es.length ≤ fuel) :
    decodePortEntries fuel (encodePortEntries es) = some es := by
  induction es generalizing fuel with
  | nil => cases fuel <;> rfl
  | cons e es ih =>
    obtain ⟨fuel, rfl⟩ : ∃ k, fuel = k + 1 := ⟨fuel - 1, by simp at h; omega⟩
    have ih' := ih fuel (by simpa using h)
    have : encodePortEntries (e :: es) = e.id :: (encodeNat e.data.length ++ (e.data ++ encodePortEntries es)) := by
      simp [encodePortEntries]
    rw [this, decodePortEntries, decodeNat_encodeNat]
    simp [ih']

@[simp] theorem decodeRecord_encodeRecord (p : ParamRecord) : decodeRecord (encodeRecord p) = some p := by
  cases p with
  | none => rfl
  | read r l => rfl
  | write r d => rfl
  | sync r dl es =>
    simp [encodeRecord, decodeRecord, decodeSyncRecord,
      decodePortEntries_encodePortEntries es _ (length_le_encodePortEntries es)]
  | bulk es => rw [encodeRecord, decodeRecord, decodeBulk_flatMap]; rfl

theorem decodeGroups_flatMap (d : Nat) (es : List SyncEntry) (hd : ∀ e ∈ es, e.data.length = d) (fuel : Nat)
    (h : es.length ≤ fuel) : decodeGroups d fuel (es.flatMap Machine.encSyncEntry) = some es := by
  induction es generalizing fuel with
  | nil => cases fuel <;> rfl
  | cons e es ih =>
    obtain ⟨fuel, rfl⟩ : ∃ k, fuel = k + 1 := ⟨fuel - 1, by simp at h; omega⟩
    have ih' := ih (fun x hx => hd x (by simp [hx])) fuel (by simpa using h)
    have he : e.data.length = d := hd e (by simp)
    subst he
    have : (e :: es).flatMap Machine.encSyncEntry = e.id :: (e.data ++ es.flatMap Machine.encSyncEntry) := by
      simp [Machine.encSyncEntry]
    rw [this, decodeGroups, if_neg (by simp)]
    simp [ih']

theorem length_le_flatMap_encSyncEntry (es : List SyncEntry) : es.length ≤ (es.flatMap Machine.encSyncEntry).length := by
  induction es with
  | nil => simp
  | cons e es ih => simp [Machine.encSyncEntry] at ih ⊢; omega

/-! ### Operations -/

section operations
variable (t : List Byte)
@[simp] theorem decode_encode : decode (0x01#8 :: t) = decodeEncode t := rfl
@[simp] theorem decode_build : decode (0x02#8 :: t) = decodeBuild t := rfl
@[simp] theorem decode_checksum : decode (0x03#8 :: t) = decodeChecksum t := rfl
@[simp] theorem decode_chkverify : decode (0x04#8 :: t) = .instr (.chkverify t) := rfl
@[simp] theorem decode_parse : decode (0x05#8 :: t) = .instr (.parse t) := rfl
@[simp] theorem decode_validate : decode (0x06#8 :: t) = decodeValidate t := rfl
@[simp] theorem decode_await : decode (0x07#8 :: t) = decodeAwait t := rfl
@[simp] theorem decode_cancel : decode (0x08#8 :: t) = decodeCancel t := rfl
@[simp] theorem decode_chunk : decode (0x09#8 :: t) = .instr (.chunk t) := rfl
@[simp] theorem decode_tick : decode (0x0A#8 :: t) = decodeEvent .tick t := rfl
@[simp] theorem decode_terr : decode (0x0B#8 :: t) = decodeEvent .terr t := rfl
@[simp] theorem decode_hwreset : decode (0x0F#8 :: t) = decodeEvent .hwreset t := rfl
@[simp] theorem decode_frame : decode (0xFF#8 :: t) = decodeFrame t := rfl
end operations

/-! ### Frames -/

theorem decodeSync_enc (id r dl : Byte) (es : List SyncEntry) (h : ∀ e ∈ es, e.data.length = dl.toNat) :
    decodeSync id (Machine.enc (.sync r dl es)) = some (.syncWrite id r dl es) := by
  rw [Machine.enc, decodeSync, decodeGroups_flatMap _ es h _ (length_le_flatMap_encSyncEntry es)]
  rfl

/-- A frame image decodes by its command and its parameter bytes. -/
theorem decode_encodeFrame (id : Byte) (c : Command) (p : ParamRecord) :
    decode (encodeFrame id c p) = .ofOption (decodeParams id c (Machine.enc p)) := by
  simp [encodeFrame, Machine.assemble_eq, decodeFrame]

end Sys2Proof
end

