-- ==== Sys2Proof/Laws/State.lean ====
section
/-! SUPPORT. One lemma per field per update of the state, all by `rfl`, so that no proof unfolds a record update. -/

namespace Sys2Proof.Machine

section respond
variable (s : State) (r : Result)
@[simp] theorem respond_queue : (respond s r).queue = s.queue := rfl
@[simp] theorem respond_nextHandle : (respond s r).nextHandle = s.nextHandle := rfl
@[simp] theorem respond_done : (respond s r).done = s.done := rfl
@[simp] theorem respond_diag : (respond s r).diag = s.diag := rfl
@[simp] theorem respond_params : (respond s r).params = s.params := rfl
@[simp] theorem respond_input : (respond s r).input = s.input := rfl
@[simp] theorem respond_result : (respond s r).result = r := rfl
@[simp] theorem respond_freeIdx : (respond s r).freeIdx = s.freeIdx := rfl
end respond

section report
variable (s : State) (k : ErrorKind)
@[simp] theorem report_queue : (report s k).queue = s.queue := rfl
@[simp] theorem report_nextHandle : (report s k).nextHandle = s.nextHandle := rfl
@[simp] theorem report_done : (report s k).done = s.done := rfl
@[simp] theorem report_diag : (report s k).diag = s.diag := rfl
@[simp] theorem report_params : (report s k).params = s.params := rfl
@[simp] theorem report_input : (report s k).input = s.input := rfl
@[simp] theorem report_result : (report s k).result = .error k := rfl
@[simp] theorem report_freeIdx : (report s k).freeIdx = s.freeIdx := rfl
end report

section diagnose
variable (s : State) (h : Handle) (k : MismatchKind)
@[simp] theorem diagnose_queue : (diagnose s h k).queue = s.queue := rfl
@[simp] theorem diagnose_nextHandle : (diagnose s h k).nextHandle = s.nextHandle := rfl
@[simp] theorem diagnose_done : (diagnose s h k).done = s.done := rfl
@[simp] theorem diagnose_diag : (diagnose s h k).diag = s.diag ++ [(h, k)] := rfl
@[simp] theorem diagnose_params : (diagnose s h k).params = s.params := rfl
@[simp] theorem diagnose_input : (diagnose s h k).input = s.input := rfl
@[simp] theorem diagnose_result : (diagnose s h k).result = s.result := rfl
@[simp] theorem diagnose_freeIdx : (diagnose s h k).freeIdx = s.freeIdx := rfl
end diagnose

section terminate
variable (s : State) (kept : List Expectation) (ended : List (Handle × Completion))
@[simp] theorem terminate_queue : (terminate s kept ended).queue = kept := rfl
@[simp] theorem terminate_nextHandle : (terminate s kept ended).nextHandle = s.nextHandle := rfl
@[simp] theorem terminate_done : (terminate s kept ended).done = s.done ++ ended := rfl
@[simp] theorem terminate_diag : (terminate s kept ended).diag = s.diag := rfl
@[simp] theorem terminate_params : (terminate s kept ended).params = s.params := rfl
@[simp] theorem terminate_input : (terminate s kept ended).input = s.input := rfl
@[simp] theorem terminate_result : (terminate s kept ended).result = s.result := rfl
@[simp] theorem terminate_freeIdx : (terminate s kept ended).freeIdx = s.freeIdx := rfl
end terminate

section register
variable (s : State) (id cmd : Byte) (t : Millis)
@[simp] theorem register_queue : (register s id cmd t).queue =
    s.queue ++ [{ handle := s.nextHandle, expId := id, expCmd := cmd, remaining := t }] := rfl
@[simp] theorem register_nextHandle : (register s id cmd t).nextHandle = s.nextHandle + 1#16 := rfl
@[simp] theorem register_done : (register s id cmd t).done = s.done := rfl
@[simp] theorem register_diag : (register s id cmd t).diag = s.diag := rfl
@[simp] theorem register_params : (register s id cmd t).params = s.params := rfl
@[simp] theorem register_input : (register s id cmd t).input = s.input := rfl
@[simp] theorem register_result : (register s id cmd t).result = .handle s.nextHandle := rfl
@[simp] theorem register_freeIdx : (register s id cmd t).freeIdx = s.freeIdx := rfl
end register

section resetWith
variable (p : Params)
@[simp] theorem resetWith_queue : (State.resetWith p).queue = [] := rfl
@[simp] theorem resetWith_nextHandle : (State.resetWith p).nextHandle = 0#16 := rfl
@[simp] theorem resetWith_done : (State.resetWith p).done = [] := rfl
@[simp] theorem resetWith_diag : (State.resetWith p).diag = [] := rfl
@[simp] theorem resetWith_params : (State.resetWith p).params = p := rfl
@[simp] theorem resetWith_input : (State.resetWith p).input = [] := rfl
@[simp] theorem resetWith_result : (State.resetWith p).result = .none := rfl
@[simp] theorem resetWith_freeIdx : (State.resetWith p).freeIdx = 0 := rfl
end resetWith

section present
variable (s : State) (t : List Byte)
@[simp] theorem present_queue : (present s t).queue = s.queue := rfl
@[simp] theorem present_nextHandle : (present s t).nextHandle = s.nextHandle := rfl
@[simp] theorem present_done : (present s t).done = s.done := rfl
@[simp] theorem present_diag : (present s t).diag = s.diag := rfl
@[simp] theorem present_params : (present s t).params = s.params := rfl
@[simp] theorem present_input : (present s t).input = t :: s.input := rfl
@[simp] theorem present_result : (present s t).result = s.result := rfl
@[simp] theorem present_freeIdx : (present s t).freeIdx = s.freeIdx := rfl
end present

end Sys2Proof.Machine
end

