-- ==== Sys2Proof/Laws/Ops.lean ====
section
/-! SUPPORT. One lemma for each shared operation that says once what it can do, and one inversion lemma for each meaning
that can end in more than one way. -/

namespace Sys2Proof.Machine

/-! ### The queue operations -/

/-- A record with one TICK less. -/
def countDown (e : Expectation) : Expectation := { e with remaining := e.remaining - 1#32 }

theorem tickQueue_kept (q : List Expectation) :
    (tickQueue q).1 = (q.filter fun e => decide (1 < e.remaining.toNat)).map countDown := by
  induction q with
  | nil => rfl
  | cons e q ih =>
    by_cases h : e.remaining.toNat ≤ 1
    · simp [tickQueue, h, ih, Nat.not_lt.2 h]
    · simp [tickQueue, h, ih, Nat.not_le.1 h, countDown]

theorem tickQueue_ended (q : List Expectation) :
    (tickQueue q).2 = (q.filter fun e => decide (e.remaining.toNat ≤ 1)).map fun e => (e.handle, Completion.timedOut) := by
  induction q with
  | nil => rfl
  | cons e q ih =>
    by_cases h : e.remaining.toNat ≤ 1 <;> simp [tickQueue, h, ih]

theorem pendingCount_cons (h : Handle) (e : Expectation) (q : List Expectation) :
    pendingCount h (e :: q) = pendingCount h q + if e.handle = h then 1 else 0 := by
  simp [pendingCount, List.countP_cons]

theorem pendingCount_pos {h : Handle} {q : List Expectation} :
    0 < pendingCount h q ↔ ∃ e ∈ q, e.handle = h := by
  simp [pendingCount, List.countP_pos_iff]

/-- The record that `dropPending` takes out, and what it leaves. -/
theorem dropPending_split (h : Handle) (n : Nat) (q : List Expectation) (hn : n < pendingCount h q) :
    ∃ pre e post, q = pre ++ e :: post ∧ e.handle = h ∧ dropPending h n q = pre ++ post := by
  induction q generalizing n with
  | nil => simp [pendingCount] at hn
  | cons e q ih =>
    rw [pendingCount_cons] at hn
    by_cases he : e.handle = h
    · cases n with
      | zero => exact ⟨[], e, q, rfl, he, by simp [dropPending, he]⟩
      | succ n =>
        obtain ⟨pre, x, post, hq, hx, hd⟩ := ih n (by rw [if_pos he] at hn; omega)
        exact ⟨e :: pre, x, post, by rw [hq]; rfl, hx, by simp [dropPending, he, hd]⟩
    · obtain ⟨pre, x, post, hq, hx, hd⟩ := ih n (by rwa [if_neg he, Nat.add_zero] at hn)
      exact ⟨e :: pre, x, post, by rw [hq]; rfl, hx, by simp [dropPending, he, hd]⟩

/-! ### BUILD -/

/-- All that BUILD can do once its call is admitted (R100). -/
theorem buildFrame_of_checkCall {id : Int} {b : Byte} {c : Command} {p : ParamRecord} (s : State)
    (h : checkCall b p = .ok c) (hp : (enc p).length ≤ 252) :
    buildFrame id b p s =
      if 0 ≤ id ∧ id ≤ 253 then .next (respond s (.frame (assemble (BitVec.ofInt 8 id) b (enc p))))
      else .next (report s .invalidId) := by
  have hb := (checkCall_ok_iff.1 h).1
  rw [buildFrame, h]
  simp only [Config.maxParams, if_neg (Nat.not_lt.2 hp), hb]

/-- BUILD answers a next state only after its call was admitted, and then a frame or InvalidId (R100, R175). -/
theorem buildFrame_next {id : Int} {b : Byte} {p : ParamRecord} {s t : State}
    (h : buildFrame id b p s = .next t) :
    (∃ c, checkCall b p = .ok c) ∧ (enc p).length ≤ 252 ∧
      ((0 ≤ id ∧ id ≤ 253 ∧ t = respond s (.frame (assemble (BitVec.ofInt 8 id) b (enc p)))) ∨
        (¬(0 ≤ id ∧ id ≤ 253) ∧ t = report s .invalidId)) := by
  cases hc : checkCall b p with
  | error r => rw [buildFrame, hc] at h; cases h
  | ok c =>
    by_cases hp : (enc p).length ≤ 252
    · rw [buildFrame_of_checkCall s hc hp] at h
      refine ⟨⟨c, rfl⟩, hp, ?_⟩
      split at h
      · rename_i hr; cases h; exact .inl ⟨hr.1, hr.2, rfl⟩
      · rename_i hr; cases h; exact .inr ⟨hr, rfl⟩
    · rw [buildFrame, hc] at h
      simp only [Config.maxParams, if_pos (Nat.not_le.1 hp)] at h
      cases h

/-! ### The meanings -/

/-- ENCODE (R88). -/
theorem execEncode_next {b : Byte} {p : ParamRecord} {s t : State} (h : execEncode b p s = .next t) :
    (∃ c, checkCall b p = .ok c) ∧ t = respond s (.paramBytes (enc p)) := by
  cases hc : checkCall b p with
  | error r => rw [execEncode, hc] at h; cases h
  | ok c => rw [execEncode, hc] at h; cases h; exact ⟨⟨c, rfl⟩, rfl⟩

/-- VALIDATE (R122) answers its verdict. -/
theorem execValidate_next {f : List Byte} {id cmd : Byte} {s t : State} (h : execValidate f id cmd s = .next t) :
    (∃ pay, validate s.params.verifyChecksum f id cmd = .ok pay ∧ t = respond s (.payload pay)) ∨
      ∃ k, validate s.params.verifyChecksum f id cmd = .err k ∧ t = report s (.mismatch k) := by
  cases hv : validate s.params.verifyChecksum f id cmd with
  | ok pay => rw [execValidate, hv] at h; cases h; exact .inl ⟨pay, rfl, rfl⟩
  | err k => rw [execValidate, hv] at h; cases h; exact .inr ⟨k, rfl, rfl⟩

/-- AWAIT (R143, R144): Busy or a registration. -/
theorem execAwait_next {id b : Byte} {ms : Millis} {s t : State} (h : execAwait id b ms s = .next t) :
    ∃ c, b = opcode c ∧
      ((s.params.nExpect ≤ s.queue.length ∧ t = report s .busy) ∨
        (s.queue.length < s.params.nExpect ∧ t = register s id b ms)) := by
  cases hc : commandOf b with
  | none => rw [execAwait, hc] at h; cases h
  | some c =>
    have hb := opcode_of_commandOf hc
    rw [execAwait, hc] at h
    refine ⟨c, hb.symm, ?_⟩
    simp only at h
    split at h
    · cases h; exact .inl ⟨‹_›, rfl⟩
    · cases h; rw [hb]; exact .inr ⟨Nat.lt_of_not_le ‹_›, rfl⟩

/-- CANCEL (R149): NotPending, or one record with the handle ends. -/
theorem execCancel_cases (h : Handle) (s : State) :
    (pendingCount h s.queue = 0 ∧ execCancel h s = .next (report s .notPending)) ∨
      ∃ pre e post n, s.queue = pre ++ e :: post ∧ e.handle = h ∧
        (pendingCount h s.queue = 1 → n = s.freeIdx) ∧
        execCancel h s =
          .next { respond (terminate s (pre ++ post) [(h, .cancelled)]) .ok with freeIdx := n } := by
  match hc : pendingCount h s.queue with
  | 0 => exact .inl ⟨rfl, by rw [execCancel, hc]⟩
  | 1 =>
    obtain ⟨pre, e, post, hq, he, hd⟩ := dropPending_split h 0 s.queue (by omega)
    exact .inr ⟨pre, e, post, s.freeIdx, hq, he, fun _ => rfl, by rw [execCancel, hc, ← hd]; rfl⟩
  | m + 2 =>
    obtain ⟨pre, e, post, hq, he, hd⟩ :=
      dropPending_split h (Config.cancelChoice s.freeIdx % (m + 2)) s.queue (hc ▸ Nat.mod_lt _ (by omega))
    exact .inr ⟨pre, e, post, s.freeIdx + 1, hq, he, by omega, by rw [execCancel, hc, ← hd]⟩

/-- CHUNK (R145 to R147): dropped, the head resolved, or a diagnostic entry. -/
theorem execChunk_cases (f : List Byte) (s : State) :
    (s.queue = [] ∧ execChunk f s = .next s) ∨
      ∃ e q, s.queue = e :: q ∧
        ((∃ pay, validate s.params.verifyChecksum f e.expId e.expCmd = .ok pay ∧
            execChunk f s = .next (terminate s q [(e.handle, .resolved pay)])) ∨
          ∃ k, validate s.params.verifyChecksum f e.expId e.expCmd = .err k ∧
            execChunk f s = .next (diagnose s e.handle k)) := by
  cases hq : s.queue with
  | nil => exact .inl ⟨rfl, by rw [execChunk, hq]⟩
  | cons e q =>
    refine .inr ⟨e, q, rfl, ?_⟩
    cases hv : validate s.params.verifyChecksum f e.expId e.expCmd with
    | ok pay => exact .inl ⟨pay, rfl, by simp only [execChunk, hq, hv]⟩
    | err k => exact .inr ⟨k, rfl, by simp only [execChunk, hq, hv]⟩

/-! ### Scripts -/

@[simp] theorem execAll_nil (s : State) : execAll [] s = .next s := rfl

theorem execAll_cons_next {i : Instr} {s t : State} (is : List Instr) (h : exec i s = .next t) :
    execAll (i :: is) s = execAll is t := by
  rw [execAll, h]

theorem execAll_append {is : List Instr} (js : List Instr) {s t : State} (h : execAll is s = .next t) :
    execAll (is ++ js) s = execAll js t := by
  induction is generalizing s with
  | nil => cases h; rfl
  | cons i is ih =>
    rw [execAll] at h
    cases hx : exec i s with
    | next u => rw [hx] at h; rw [List.cons_append, execAll_cons_next _ hx]; exact ih h
    | fault r => rw [hx] at h; cases h
    | refused r => rw [hx] at h; cases h

end Sys2Proof.Machine
end

