-- ==== Sys2Proof/Laws/Exec.lean ====
section
/-! SUPPORT. What any instruction can do to the state, said once: every whole-machine property is read off `exec_effect`. -/

namespace Sys2Proof.Machine

open Sys2Proof.Safety

/-! ### The FRAME rows and BUILD are one operation -/

section frames
variable (id register length dataLength : Byte) (data : List Byte) (s : State)
theorem exec_ping : exec (.ping id) s = buildFrame (Int.ofNat id.toNat) (opcode .ping) .none s := rfl
theorem exec_readData : exec (.readData id register length) s =
    buildFrame (Int.ofNat id.toNat) (opcode .readData) (.read register length) s := rfl
theorem exec_writeData : exec (.writeData id register data) s =
    buildFrame (Int.ofNat id.toNat) (opcode .writeData) (.write register data) s := rfl
theorem exec_regWrite : exec (.regWrite id register data) s =
    buildFrame (Int.ofNat id.toNat) (opcode .regWrite) (.write register data) s := rfl
theorem exec_action : exec (.action id) s = buildFrame (Int.ofNat id.toNat) (opcode .action) .none s := rfl
theorem exec_reset : exec (.reset id) s = buildFrame (Int.ofNat id.toNat) (opcode .reset) .none s := rfl
theorem exec_syncWrite (es : List SyncEntry) : exec (.syncWrite id register dataLength es) s =
    buildFrame (Int.ofNat id.toNat) (opcode .syncWrite) (.sync register dataLength es) s := rfl
theorem exec_bulkRead (es : List BulkEntry) : exec (.bulkRead id es) s =
    buildFrame (Int.ofNat id.toNat) (opcode .bulkRead) (.bulk es) s := rfl
theorem exec_build (n : Int) (b : Byte) (p : ParamRecord) : exec (.build n b p) s = buildFrame n b p s := rfl
end frames

/-- The effect of an instruction that answers a next state. -/
inductive Effect (i : Instr) (s t : State) : Prop where
  /-- `S.Q`, `S.NEXT_HANDLE` and `S.DONE` are as before; `S.DIAG` may have grown. -/
  | quiet (hq : t.queue = s.queue) (hn : t.nextHandle = s.nextHandle) (hd : t.done = s.done)
      (hg : ∃ g, t.diag = s.diag ++ g) (hp : t.params = s.params) (hin : t.input = s.input)
  /-- An accepted AWAIT (R143). -/
  | accepted (id : Byte) (c : Command) (ms : Millis) (hi : i = .await id (opcode c) ms)
      (hl : s.queue.length < s.params.nExpect) (ht : t = register s id (opcode c) ms)
  /-- Some records ended (R22): each left the queue with one completion. -/
  | ended (gone : List (Handle × Completion)) (hn : t.nextHandle = s.nextHandle) (hd : t.done = s.done ++ gone)
      (hg : t.diag = s.diag) (hp : t.params = s.params) (hin : t.input = s.input)
      (hs : (t.queue.map identity).Sublist (s.queue.map identity))
      (hperm : (s.queue.map (·.handle)).Perm (t.queue.map (·.handle) ++ gone.map (·.1)))
      (hrej : ∀ d ∈ gone, (∀ k, d.2 = .rejected k → k = .transportError) ∧ ∀ p, d.2 = .resolved p → p.length ≤ 252)
  /-- HWRESET (R200). -/
  | reset (hi : i = .hwreset) (ht : t = { State.resetWith s.params with input := s.input, freeIdx := s.freeIdx })

theorem tickQueue_perm (q : List Expectation) :
    (q.map (·.handle)).Perm ((tickQueue q).1.map (·.handle) ++ (tickQueue q).2.map (·.1)) := by
  induction q with
  | nil => simp [tickQueue]
  | cons e q ih =>
    by_cases h : e.remaining.toNat ≤ 1
    · simp only [tickQueue, h, if_true, List.map_cons]
      exact (List.Perm.cons _ ih).trans List.perm_middle.symm
    · simp only [tickQueue, h, if_false, List.map_cons, List.cons_append]
      exact List.Perm.cons _ ih

theorem tickQueue_sublist (q : List Expectation) : ((tickQueue q).1.map identity).Sublist (q.map identity) := by
  induction q with
  | nil => simp [tickQueue]
  | cons e q ih =>
    by_cases h : e.remaining.toNat ≤ 1
    · simp only [tickQueue, h, if_true, List.map_cons]
      exact ih.cons _
    · simp only [tickQueue, h, if_false, List.map_cons, identity] at ih ⊢
      exact ih.cons_cons _

theorem effect_respond (i : Instr) (s : State) (r : Result) : Effect i s (respond s r) :=
  .quiet rfl rfl rfl ⟨[], by simp⟩ rfl rfl

theorem effect_buildFrame {i : Instr} {id : Int} {b : Byte} {p : ParamRecord} {s t : State}
    (h : buildFrame id b p s = .next t) : Effect i s t := by
  obtain ⟨-, -, ⟨-, -, rfl⟩ | ⟨-, rfl⟩⟩ := buildFrame_next h <;> exact effect_respond ..

/-- What any instruction can do. -/
theorem exec_effect {i : Instr} {s t : State} (h : exec i s = .next t) : Effect i s t := by
  cases i with
  | ping id => rw [exec_ping] at h; exact effect_buildFrame h
  | readData id r l => rw [exec_readData] at h; exact effect_buildFrame h
  | writeData id r d => rw [exec_writeData] at h; exact effect_buildFrame h
  | regWrite id r d => rw [exec_regWrite] at h; exact effect_buildFrame h
  | action id => rw [exec_action] at h; exact effect_buildFrame h
  | reset id => rw [exec_reset] at h; exact effect_buildFrame h
  | syncWrite id r dl es => rw [exec_syncWrite] at h; exact effect_buildFrame h
  | bulkRead id es => rw [exec_bulkRead] at h; exact effect_buildFrame h
  | build id b p => rw [exec_build] at h; exact effect_buildFrame h
  | encode b p => obtain ⟨-, rfl⟩ := execEncode_next h; exact effect_respond ..
  | checksum id l c pb => cases h; exact effect_respond ..
  | chkverify f => cases h; exact effect_respond ..
  | parse f => cases h; exact effect_respond ..
  | validate f id c => obtain ⟨_, _, rfl⟩ | ⟨_, _, rfl⟩ := execValidate_next h <;> exact effect_respond ..
  | await id b ms =>
    obtain ⟨c, rfl, ⟨-, rfl⟩ | ⟨hl, rfl⟩⟩ := execAwait_next h
    · exact effect_respond ..
    · exact .accepted id c ms rfl hl rfl
  | cancel hd =>
    simp only [exec] at h
    obtain ⟨-, hx⟩ | ⟨pre, e, post, n, hq, rfl, -, hx⟩ := execCancel_cases hd s <;> rw [hx] at h <;> cases h
    · exact effect_respond ..
    · refine .ended [(e.handle, .cancelled)] rfl rfl rfl rfl rfl ?_ ?_ (by simp)
      · rw [hq]; exact ((List.Sublist.refl pre).append (List.sublist_cons_self e post)).map _
      · rw [hq]
        simpa using (List.perm_append_comm (l₁ := [e.handle]) (l₂ := post.map (·.handle))).append_left
          (pre.map (·.handle))
  | chunk f =>
    simp only [exec] at h
    obtain ⟨-, hx⟩ | ⟨e, q, hq, ⟨p, hp, hx⟩ | ⟨k, -, hx⟩⟩ := execChunk_cases f s <;> rw [hx] at h <;> cases h
    · exact .quiet rfl rfl rfl ⟨[], by simp⟩ rfl rfl
    · refine .ended [(e.handle, .resolved p)] rfl rfl rfl rfl rfl (by rw [hq]; simp) ?_ (by simpa using validate_ok_length hp)
      rw [hq]; simpa using List.perm_append_comm (l₁ := [e.handle]) (l₂ := q.map (·.handle))
    · exact .quiet rfl rfl rfl ⟨_, rfl⟩ rfl rfl
  | tick =>
    cases h
    refine .ended _ rfl rfl rfl rfl rfl (tickQueue_sublist _) (tickQueue_perm _) ?_
    rw [tickQueue_ended]
    rintro d hd
    obtain ⟨e, -, rfl⟩ := List.mem_map.1 hd
    simp
  | terr =>
    cases h
    exact .ended _ rfl rfl rfl rfl rfl (by simp) (by simp [Function.comp_def]) (by simp)
  | hwreset => cases h; exact .reset rfl rfl

/-! ### No instruction looks at the input port -/

/-- An outcome with the input port of its next state replaced. -/
def withInput (r : List (List Byte)) : Host.Outcome State Fault Refusal → Host.Outcome State Fault Refusal
  | .next t => .next { t with input := r }
  | .fault e => .fault e
  | .refused e => .refused e

theorem buildFrame_input (id : Int) (b : Byte) (p : ParamRecord) (s : State) (r : List (List Byte)) :
    buildFrame id b p { s with input := r } = withInput r (buildFrame id b p s) := by
  simp only [buildFrame]
  split
  · rfl
  · split
    · rfl
    · split <;> rfl

theorem exec_input (i : Instr) (s : State) (r : List (List Byte)) :
    exec i { s with input := r } = withInput r (exec i s) := by
  cases i with
  | ping id => rw [exec_ping, exec_ping]; exact buildFrame_input ..
  | readData => exact buildFrame_input ..
  | writeData => exact buildFrame_input ..
  | regWrite => exact buildFrame_input ..
  | action id => rw [exec_action, exec_action]; exact buildFrame_input ..
  | reset id => rw [exec_reset, exec_reset]; exact buildFrame_input ..
  | syncWrite => exact buildFrame_input ..
  | bulkRead id es => rw [exec_bulkRead, exec_bulkRead]; exact buildFrame_input ..
  | build => exact buildFrame_input ..
  | encode b p => simp only [exec, execEncode]; split <;> rfl
  | checksum => rfl
  | chkverify => rfl
  | parse => rfl
  | validate f id c => simp only [exec, execValidate]; split <;> rfl
  | await id b ms =>
    simp only [exec, execAwait]
    split
    · rfl
    · split <;> rfl
  | cancel h => simp only [exec, execCancel]; split <;> rfl
  | chunk f =>
    simp only [exec, execChunk]
    split
    · rfl
    · split <;> rfl
  | tick => rfl
  | terr => rfl
  | hwreset => rfl

end Sys2Proof.Machine
end

