-- ==== Sys2Proof/Laws/PerInstr.lean ====
section
/-! SUPPORT. Per instruction: the transaction the encoder writes carries the instruction's row of spec/opcode_table.json,
the eight commands in the word `W` of their frame image (R66), the operations and events in OPSEL (R73). -/

namespace Sys2Proof.Laws.TableRow

open Sys2Proof.Machine Sys2Proof.Safety

/-- A row of the table: its bits, its mask and what the masked word is. -/
structure Row where
  frame : Bool
  mask : BitVec 40
  value : BitVec 40
deriving DecidableEq, Repr

/-- A FRAME row (R66). -/
def Row.ofFrame (value : BitVec 40) : Row := { frame := true, mask := 0xFFFF0000FF#40, value }

/-- An OP row (R73). -/
def Row.ofOp (value : BitVec 40) : Row := { frame := false, mask := 0xF#40, value }

/-- The row of an instruction, copied from the table. -/
def rowOf : Instr → Row
  | .ping _ => .ofFrame 0xFFFF000001#40
  | .readData _ _ _ => .ofFrame 0xFFFF000002#40
  | .writeData _ _ _ => .ofFrame 0xFFFF000003#40
  | .regWrite _ _ _ => .ofFrame 0xFFFF000004#40
  | .action _ => .ofFrame 0xFFFF000005#40
  | .reset _ => .ofFrame 0xFFFF000006#40
  | .syncWrite _ _ _ _ => .ofFrame 0xFFFF000083#40
  | .bulkRead _ _ => .ofFrame 0xFFFF000092#40
  | .encode _ _ => .ofOp 0x1#40
  | .build _ _ _ => .ofOp 0x2#40
  | .checksum _ _ _ _ => .ofOp 0x3#40
  | .chkverify _ => .ofOp 0x4#40
  | .parse _ => .ofOp 0x5#40
  | .validate _ _ _ => .ofOp 0x6#40
  | .await _ _ _ => .ofOp 0x7#40
  | .cancel _ => .ofOp 0x8#40
  | .chunk _ => .ofOp 0x9#40
  | .tick => .ofOp 0xA#40
  | .terr => .ofOp 0xB#40
  | .hwreset => .ofOp 0xF#40

/-- The word of a transaction that the table's row speaks of. -/
def wordOf (frame : Bool) (t : List Byte) : BitVec 40 := if frame then prefixWord t else (byteAt t 0).setWidth 40

/-- The encoder writes the instruction's row. -/
def Statement (i : Instr) : Prop := wordOf (rowOf i).frame (encode i) &&& (rowOf i).mask = (rowOf i).value

/-- The word of a frame image under the table's mask. -/
theorem prefixWord_encodeFrame (id : Byte) (c : Command) (p : ParamRecord) :
    prefixWord (encodeFrame id c p) &&& 0xFFFF0000FF#40 = 0xFFFF000000#40 ||| (opcode c).setWidth 40 := by
  rw [encodeFrame, assemble_eq]
  simp only [prefixWord, byteAt_zero, byteAt_succ]
  apply BitVec.eq_of_getLsbD_eq
  intro i hi
  interval_cases i <;> simp

/-- The word of an operation or event. -/
theorem wordOf_op {b : Byte} {v : BitVec 40} (t : List Byte) (h : b.setWidth 40 &&& 0xF#40 = v) :
    wordOf false (b :: t) &&& 0xF#40 = v := h

theorem ping (id : Byte) : Statement (.ping id) := prefixWord_encodeFrame id .ping .none
theorem readData (id r l : Byte) : Statement (.readData id r l) := prefixWord_encodeFrame id .readData (.read r l)
theorem writeData (id r : Byte) (d : List Byte) : Statement (.writeData id r d) :=
  prefixWord_encodeFrame id .writeData (.write r d)
theorem regWrite (id r : Byte) (d : List Byte) : Statement (.regWrite id r d) :=
  prefixWord_encodeFrame id .regWrite (.write r d)
theorem action (id : Byte) : Statement (.action id) := prefixWord_encodeFrame id .action .none
theorem reset (id : Byte) : Statement (.reset id) := prefixWord_encodeFrame id .reset .none
theorem syncWrite (id r dl : Byte) (es : List SyncEntry) : Statement (.syncWrite id r dl es) :=
  prefixWord_encodeFrame id .syncWrite (.sync r dl es)
theorem bulkRead (id : Byte) (es : List BulkEntry) : Statement (.bulkRead id es) :=
  prefixWord_encodeFrame id .bulkRead (.bulk es)
theorem encode (cmd : Byte) (p : ParamRecord) : Statement (.encode cmd p) := wordOf_op (v := 0x1#40) _ (by decide)
theorem build (id : Int) (cmd : Byte) (p : ParamRecord) : Statement (.build id cmd p) :=
  wordOf_op (v := 0x2#40) _ (by decide)
theorem checksum (id l cmd : Byte) (pb : List Byte) : Statement (.checksum id l cmd pb) :=
  wordOf_op (v := 0x3#40) _ (by decide)
theorem chkverify (f : List Byte) : Statement (.chkverify f) := wordOf_op (v := 0x4#40) _ (by decide)
theorem parse (f : List Byte) : Statement (.parse f) := wordOf_op (v := 0x5#40) _ (by decide)
theorem validate (f : List Byte) (id cmd : Byte) : Statement (.validate f id cmd) :=
  wordOf_op (v := 0x6#40) _ (by decide)
theorem await (id cmd : Byte) (ms : Millis) : Statement (.await id cmd ms) := wordOf_op (v := 0x7#40) _ (by decide)
theorem cancel (h : Handle) : Statement (.cancel h) := wordOf_op (v := 0x8#40) _ (by decide)
theorem chunk (f : List Byte) : Statement (.chunk f) := wordOf_op (v := 0x9#40) _ (by decide)
theorem tick : Statement .tick := wordOf_op (v := 0xA#40) _ (by decide)
theorem terr : Statement .terr := wordOf_op (v := 0xB#40) _ (by decide)
theorem hwreset : Statement .hwreset := wordOf_op (v := 0xF#40) _ (by decide)

end Sys2Proof.Laws.TableRow
end

