-- ==== Sys2Proof/Laws/Safety.lean ====
section
/-! SUPPORT. The words of the statements (Safety.lean) against the machine's own definitions: the frame of R60, the
checksum's sum, and the five checks of VALIDATE. -/

namespace Sys2Proof.Machine

open Sys2Proof.Safety

theorem sum_map_toNat (l : List Byte) : (l.map BitVec.toNat).sum = sumBytes l := (sumBytes_eq_sum l).symm

/-- Two checksums agree exactly when their sums do, modulo 256. -/
theorem checksum_eq_iff {id l cmd id' l' cmd' : Byte} {pb pb' : List Byte} :
    checksum id l cmd pb = checksum id' l' cmd' pb' ↔
      (id.toNat + l.toNat + cmd.toNat + sumBytes pb) % 256 = (id'.toNat + l'.toNat + cmd'.toNat + sumBytes pb') % 256 := by
  rw [← BitVec.toNat_inj, checksum_toNat, checksum_toNat]
  omega

theorem checksum_eq_negatedSum (id l cmd : Byte) (pb : List Byte) :
    checksum id l cmd pb = negatedSum (id :: l :: cmd :: pb) := by
  rw [← BitVec.toNat_inj, checksum_toNat, negatedSum, sum_map_toNat]
  simp only [sumBytes_cons, BitVec.toNat_ofNat]
  omega

/-- The machine's assembly is the frame of R60. -/
theorem assemble_eq_frameOf (id cmd : Byte) (pb : List Byte) :
    assemble id cmd pb = frameOf id (BitVec.ofNat 8 (pb.length + 3)) cmd pb := by
  rw [assemble_eq, checksum_eq_negatedSum]
  rfl

/-! ### The checks of VALIDATE -/

theorem getElem?_eq_some_byteAt (f : List Byte) (i : Nat) (b : Byte) : f[i]? = some b ↔ i < f.length ∧ byteAt f i = b := by
  by_cases h : i < f.length <;> simp [byteAt, h]

theorem headerGood_iff (f : List Byte) : HeaderGood f ↔ 2 ≤ f.length ∧ byteAt f 0 = 0xFF#8 ∧ byteAt f 1 = 0xFF#8 := by
  match f with
  | [] => simp [HeaderGood]
  | [_] => simp [HeaderGood]
  | _ :: _ :: _ => simp [HeaderGood]

theorem idGood_iff (f : List Byte) (id : Byte) : IdGood f id ↔ 3 ≤ f.length ∧ byteAt f 2 = id :=
  getElem?_eq_some_byteAt f 2 id

theorem lengthGood_iff (f : List Byte) : LengthGood f ↔ 6 ≤ f.length ∧ (byteAt f 3).toNat = f.length - 3 := by
  simp only [LengthGood, getElem?_eq_some_byteAt]
  constructor
  · rintro ⟨h, l, ⟨-, rfl⟩, hl⟩; omega
  · rintro ⟨h, hl⟩; exact ⟨h, _, ⟨by omega, rfl⟩, by omega⟩

theorem commandGood_iff {f : List Byte} (cmd : Byte) (h : LengthGood f) : CommandGood f cmd ↔ byteAt f 4 = cmd := by
  have := h.1
  rw [CommandGood, getElem?_eq_some_byteAt]
  simp
  omega

theorem chkverify_iff (f : List Byte) : chkverify f = true ↔ 6 ≤ f.length ∧ ChecksumGood f := by
  by_cases h : 6 ≤ f.length
  · obtain ⟨h0, h1, id, l, c, p, k, rfl⟩ := exists_fields h
    rw [chkverify_fields, decide_eq_true_eq, eq_checksum_iff, ChecksumGood, sum_map_toNat]
    simp
    constructor <;> intro <;> omega
  · simp [chkverify, h]

/-- VALIDATE as the chain of its checks. -/
theorem validate_eq_checks (v : Bool) (f : List Byte) (id cmd : Byte) : validate v f id cmd = open Classical in
    if ¬ HeaderGood f then .err .header
    else if ¬ IdGood f id then .err .id
    else if ¬ LengthGood f then .err .length
    else if ¬ CommandGood f cmd then .err .command
    else if v = true ∧ ¬ ChecksumGood f then .err .checksum
    else .ok (slice f 5 (f.length - 1)) := by
  classical
  by_cases h : LengthGood f
  · have hk : ChecksumGood f ↔ chkverify f = true := by rw [chkverify_iff]; simp [h.1]
    simp only [commandGood_iff cmd h, hk]
    simp only [validate, headerGood_iff, idGood_iff, lengthGood_iff, Config.minFrame, Config.lenDelta]
  · unfold validate
    rw [lengthGood_iff] at h
    simp only [headerGood_iff, idGood_iff, lengthGood_iff, Config.minFrame, Config.lenDelta, if_pos h]

/-! ### Commands and built frames -/

theorem commandOf_eq_none {cmd : Byte} (h : ∀ c : Command, cmd ≠ opcode c) : commandOf cmd = none := by
  cases hc : commandOf cmd with
  | none => rfl
  | some c => exact absurd (opcode_of_commandOf hc).symm (h c)

/-- A frame that BUILD answers comes from an admitted call with a legal id. -/
theorem buildFrame_frame {id : Int} {b : Byte} {p : ParamRecord} {s t : State} {f : List Byte}
    (h : buildFrame id b p s = .next t) (hf : t.result = .frame f) :
    (∃ c, checkCall b p = .ok c) ∧ (enc p).length ≤ 252 ∧ 0 ≤ id ∧ id ≤ 253 ∧
      f = assemble (BitVec.ofInt 8 id) b (enc p) := by
  obtain ⟨hc, hp, ⟨h0, h1, rfl⟩ | ⟨-, rfl⟩⟩ := buildFrame_next h
  · simp at hf; exact ⟨hc, hp, h0, h1, hf.symm⟩
  · simp at hf

/-- A record with more than one TICK left counts down by one, without wrapping. -/
theorem countDown_eq {e : Expectation} (h : 2 ≤ e.remaining.toNat) :
    countDown e = { e with remaining := BitVec.ofNat 32 (e.remaining.toNat - 1) } := by
  unfold countDown
  congr 1
  apply BitVec.eq_of_toNat_eq
  have := e.remaining.isLt
  simp [BitVec.toNat_sub]
  omega

/-! ### One TICK in the words of the statements -/

theorem tickQueue_eq (q : List Expectation) : tickQueue q = (survivors q, expiries q) := by
  refine Prod.ext ?_ (tickQueue_ended q)
  rw [tickQueue_kept]
  refine List.map_congr_left fun e he => countDown_eq ?_
  have := (List.mem_filter.1 he).2
  simp at this
  omega

theorem survivors_cons_of_le {e : Expectation} (q : List Expectation) (h : e.remaining.toNat ≤ 1) :
    survivors (e :: q) = survivors q := by
  simp [survivors, Nat.not_le.2 (Nat.lt_succ_of_le h)]

theorem expiries_cons_of_le {e : Expectation} (q : List Expectation) (h : e.remaining.toNat ≤ 1) :
    expiries (e :: q) = (e.handle, .timedOut) :: expiries q := by
  simp [expiries, h]

end Sys2Proof.Machine
end

