-- ==== Sys2Proof/Tests/Slice0.lean ====
section
/-! SUPPORT. The model's own tests: one step each on small states, expected values from spec/95_test_vectors.md or computed
by hand from the rule named, and for every statement with hypotheses a witness that meets them. -/

namespace Sys2Proof.Tests

open Sys2Proof.Machine Sys2Proof.Safety

/-! ### Helpers -/

/-- The next state, where there is one. -/
def nextOf : Host.Outcome State Fault Refusal → Option State
  | .next t => some t
  | .fault _ => none
  | .refused _ => none

/-- The refusal, where there is one. -/
def refusalOf : Host.Outcome State Fault Refusal → Option Refusal
  | .next _ => none
  | .fault _ => none
  | .refused r => some r

/-- The result port after an instruction on the reset state. -/
def resultOf (i : Instr) : Option Result := (nextOf (exec i State.reset)).map State.result

/-- A state with a queue, a handle counter and a capacity. -/
def holding (q : List Expectation) (h : Handle) (n : Nat) : State :=
  { State.reset with queue := q, nextHandle := h, params := { verifyChecksum := true, nExpect := n } }

/-- One expectation of id 1, PING, 100 TICKs left. -/
def one : State := holding [⟨0#16, 0x01#8, 0x01#8, 100#32⟩] 1#16 1

/-- Two expectations, of ids 1 and 2. -/
def two : State := holding [⟨0#16, 0x01#8, 0x01#8, 50#32⟩, ⟨1#16, 0x02#8, 0x01#8, 50#32⟩] 2#16 2

/-- What an instruction does to the queue and the two streams. -/
def effectOf (i : Instr) (s : State) :
    Option (List Expectation × List (Handle × Completion) × List (Handle × MismatchKind)) :=
  (nextOf (exec i s)).map fun t => (t.queue, t.done, t.diag)

/-- `build(1, READ_DATA, register 0x38, length 2)`, vector S2. -/
def s2 : List Byte := [0xFF#8, 0xFF#8, 0x01#8, 0x05#8, 0x02#8, 0x38#8, 0x02#8, 0xBE#8]

/-- The PING frame of id 1, vector S1. -/
def s1 : List Byte := [0xFF#8, 0xFF#8, 0x01#8, 0x03#8, 0x01#8, 0xFB#8]

/-- A BULK_READ list of `n` entries. -/
def bulkList (n : Nat) : List BulkEntry := List.replicate n ⟨0x01#8, 0x38#8, 0x02#8⟩

/-! ### Decoding: a word of every constructor, from R63, R66 and R73 (OP operands: log 3) -/

theorem test_decode_ping : decode s1 = .instr (.ping 0x01#8) := by decide
theorem test_decode_readData : decode s2 = .instr (.readData 0x01#8 0x38#8 0x02#8) := by decide
theorem test_decode_writeData :
    decode [0xFF#8, 0xFF#8, 0x01#8, 0x06#8, 0x03#8, 0x2A#8, 0x00#8, 0x08#8, 0xC4#8] =
      .instr (.writeData 0x01#8 0x2A#8 [0x00#8, 0x08#8]) := by decide
theorem test_decode_regWrite :
    decode [0xFF#8, 0xFF#8, 0x05#8, 0x05#8, 0x04#8, 0x19#8, 0x00#8, 0xD9#8] =
      .instr (.regWrite 0x05#8 0x19#8 [0x00#8]) := by decide
theorem test_decode_action :
    decode [0xFF#8, 0xFF#8, 0xC8#8, 0x03#8, 0x05#8, 0x30#8] = .instr (.action 0xC8#8) := by decide
theorem test_decode_reset :
    decode [0xFF#8, 0xFF#8, 0xFD#8, 0x03#8, 0x06#8, 0xFA#8] = .instr (.reset 0xFD#8) := by decide
theorem test_decode_syncWrite :
    decode [0xFF#8, 0xFF#8, 0x01#8, 0x0B#8, 0x83#8, 0x2A#8, 0x02#8, 0x01#8, 0x00#8, 0x08#8, 0x02#8, 0xFF#8, 0x03#8,
        0x38#8] =
      .instr (.syncWrite 0x01#8 0x2A#8 0x02#8 [⟨0x01#8, [0x00#8, 0x08#8]⟩, ⟨0x02#8, [0xFF#8, 0x03#8]⟩]) := by decide
theorem test_decode_bulkRead :
    decode [0xFF#8, 0xFF#8, 0x03#8, 0x06#8, 0x92#8, 0x07#8, 0x05#8, 0x01#8, 0x58#8] =
      .instr (.bulkRead 0x03#8 [⟨0x07#8, 0x05#8, 0x01#8⟩]) := by decide
theorem test_decode_encode :
    decode [0x01#8, 0x02#8, 0x01#8, 0x38#8, 0x02#8] = .instr (.encode 0x02#8 (.read 0x38#8 0x02#8)) := by decide
theorem test_decode_build : decode [0x02#8, 0x01#8, 0x00#8, 0x01#8, 0x00#8] = .instr (.build (-1) 0x01#8 .none) := by decide
theorem test_decode_checksum :
    decode [0x03#8, 0x01#8, 0x03#8, 0x01#8] = .instr (.checksum 0x01#8 0x03#8 0x01#8 []) := by decide
theorem test_decode_chkverify : decode (0x04#8 :: s1) = .instr (.chkverify s1) := by decide
theorem test_decode_parse : decode (0x05#8 :: s2) = .instr (.parse s2) := by decide
theorem test_decode_validate : decode (0x06#8 :: 0x01#8 :: 0x02#8 :: s2) = .instr (.validate s2 0x01#8 0x02#8) := by decide
theorem test_decode_await :
    decode [0x07#8, 0x01#8, 0x02#8, 0x64#8, 0x00#8, 0x00#8, 0x01#8] =
      .instr (.await 0x01#8 0x02#8 0x01000064#32) := by decide
theorem test_decode_cancel : decode [0x08#8, 0x34#8, 0x12#8] = .instr (.cancel 0x1234#16) := by decide
theorem test_decode_chunk : decode [0x09#8, 0xFF#8] = .instr (.chunk [0xFF#8]) := by decide
theorem test_decode_tick : decode [0x0A#8] = .instr .tick := by decide
theorem test_decode_terr : decode [0x0B#8] = .instr .terr := by decide
theorem test_decode_hwreset : decode [0x0F#8] = .instr .hwreset := by decide

/-- R68, R73 and log 9: what no instruction is. -/
theorem test_decode_rejects :
    decode [0xFF#8, 0xFF#8, 0x01#8, 0x03#8, 0x07#8, 0xF5#8] = .reject .unknownCommand ∧
      decode [0x0C#8] = .reject .unknownOperation ∧ decode [0x20#8] = .reject .malformed ∧
      decode [0xFF#8, 0xFE#8, 0x01#8, 0x03#8, 0x01#8, 0xFB#8] = .reject .malformed ∧ decode [] = .reject .malformed := by
  decide

theorem test_encode_ping : encode (.ping 0x01#8) = s1 := by decide
theorem test_encode_readData : encode (.readData 0x01#8 0x38#8 0x02#8) = s2 := by decide

/-- The table's words run as the first instruction after reset (log 10, log 12). -/
theorem test_fetch_word :
    (nextOf (step (State.reset.withFetchWord 40 0xFFFF010301))).map State.result = some (.frame s1) ∧
      decodeTableWord 40 0xFFFF010301 = some (.ping 0x01#8) ∧
      (nextOf (step (State.reset.withFetchWord 8 0x8))).map State.result = some (.error .notPending) := by decide

/-! ### Well-formedness: an ill-formed term for each check -/

/-- R90 for the FRAME rows. -/
theorem test_wf_records :
    (Instr.readData 1#8 0x38#8 3#8).wellFormed = false ∧ (Instr.writeData 1#8 0x19#8 []).wellFormed = false ∧
      (Instr.regWrite 1#8 0x19#8 [1#8, 2#8, 3#8]).wellFormed = false ∧
      (Instr.syncWrite 1#8 0x2A#8 2#8 [⟨1#8, [0#8]⟩]).wellFormed = false := by decide

/-- R103: 252 parameter bytes are the most. -/
theorem test_wf_lengths :
    (Instr.bulkRead 1#8 (bulkList 84)).wellFormed = true ∧ (Instr.bulkRead 1#8 (bulkList 85)).wellFormed = false ∧
      (Instr.syncWrite 1#8 0x2A#8 2#8 (List.replicate 84 ⟨1#8, [0#8, 0#8]⟩)).wellFormed = false ∧
      (Instr.build 1 0x92#8 (.bulk (bulkList 85))).wellFormed = false := by decide

/-- R88, R89, R142. -/
theorem test_wf_calls :
    (Instr.encode 0x07#8 .none).wellFormed = false ∧ (Instr.encode 0x01#8 (.read 0x38#8 2#8)).wellFormed = false ∧
      (Instr.encode 0x02#8 (.read 0x38#8 0#8)).wellFormed = false ∧
      (Instr.build 1 0x01#8 (.read 0x38#8 2#8)).wellFormed = false ∧ (Instr.await 1#8 0x07#8 5#32).wellFormed = false := by
  decide

/-! ### The commands and BUILD (vectors of 2.1) -/

theorem test_ping_checksum_zero :
    resultOf (.ping 252#8) = some (.frame [0xFF#8, 0xFF#8, 0xFC#8, 0x03#8, 0x01#8, 0x00#8]) := by decide
theorem test_ping_reserved_id : resultOf (.ping 254#8) = some (.error .invalidId) := by decide
theorem test_readData :
    resultOf (.readData 1#8 0x38#8 1#8) =
      some (.frame [0xFF#8, 0xFF#8, 0x01#8, 0x05#8, 0x02#8, 0x38#8, 0x01#8, 0xBF#8]) := by decide
theorem test_writeData_sum_wraps :
    resultOf (.writeData 1#8 0xFF#8 [0xFF#8, 0xFF#8]) =
      some (.frame [0xFF#8, 0xFF#8, 0x01#8, 0x06#8, 0x03#8, 0xFF#8, 0xFF#8, 0xFF#8, 0xF9#8]) := by decide
theorem test_regWrite :
    resultOf (.regWrite 1#8 0x2A#8 [0xFF#8, 0x0F#8]) =
      some (.frame [0xFF#8, 0xFF#8, 0x01#8, 0x06#8, 0x04#8, 0x2A#8, 0xFF#8, 0x0F#8, 0xBD#8]) := by decide
theorem test_action : resultOf (.action 200#8) = some (.frame [0xFF#8, 0xFF#8, 0xC8#8, 0x03#8, 0x05#8, 0x30#8]) := by decide
theorem test_reset : resultOf (.reset 253#8) = some (.frame [0xFF#8, 0xFF#8, 0xFD#8, 0x03#8, 0x06#8, 0xFA#8]) := by decide
theorem test_syncWrite :
    resultOf (.syncWrite 1#8 0x2A#8 2#8 [⟨1#8, [0x00#8, 0x08#8]⟩, ⟨2#8, [0xFF#8, 0x03#8]⟩]) =
      some (.frame [0xFF#8, 0xFF#8, 0x01#8, 0x0B#8, 0x83#8, 0x2A#8, 0x02#8, 0x01#8, 0x00#8, 0x08#8, 0x02#8, 0xFF#8,
        0x03#8, 0x38#8]) := by decide
/-- One entry, by hand: sum 3 + 6 + 146 + 7 + 5 + 1 = 168, 256 - 168 = 88. -/
theorem test_bulkRead :
    resultOf (.bulkRead 3#8 [⟨0x07#8, 0x05#8, 0x01#8⟩]) =
      some (.frame [0xFF#8, 0xFF#8, 0x03#8, 0x06#8, 0x92#8, 0x07#8, 0x05#8, 0x01#8, 0x58#8]) := by decide
theorem test_bulkRead_too_long : refusalOf (exec (.bulkRead 1#8 (bulkList 85)) State.reset) = some .paramTooLong := by
  decide +kernel
theorem test_build_rejects_256 : resultOf (.build 256 0x01#8 .none) = some (.error .invalidId) := by decide
theorem test_build_refusal_first :
    refusalOf (exec (.build 254 0x02#8 (.read 0x38#8 3#8)) State.reset) = some .illFormedParams := by decide
theorem test_encode_sync :
    resultOf (.encode 0x83#8 (.sync 0x2A#8 1#8 [⟨9#8, [7#8]⟩])) = some (.paramBytes [0x2A#8, 1#8, 9#8, 7#8]) := by decide
theorem test_encode_variant :
    refusalOf (exec (.encode 0x01#8 (.read 0x38#8 2#8)) State.reset) = some .variantMismatch := by decide

/-! ### CHECKSUM, CHKVERIFY, PARSE, VALIDATE (vectors of 2.2 to 2.5) -/

theorem test_checksum_never_256 : resultOf (.checksum 252#8 3#8 1#8 []) = some (.byte 0x00#8) := by decide
theorem test_checksum_largest :
    resultOf (.checksum 255#8 255#8 255#8 (List.replicate 252 0xFF#8)) = some (.byte 0xFF#8) := by
  decide +kernel
theorem test_chkverify_skips_header : resultOf (.chkverify (0xFE#8 :: s2.tail)) = some (.truth true) := by decide
theorem test_chkverify_short : resultOf (.chkverify (s1.take 5)) = some (.truth false) := by decide
theorem test_parse :
    resultOf (.parse [0x12#8, 0x34#8, 0x56#8, 0x78#8, 0x9A#8, 0xBC#8, 0xDE#8]) =
      some (.parsed (some
        { header := [0x12#8, 0x34#8], id := 0x56#8, length := 0x78#8, cmd := 0x9A#8, params := [0xBC#8],
          checksum := 0xDE#8 })) := by decide
theorem test_parse_short : resultOf (.parse (s1.take 5)) = some (.parsed none) := by decide
theorem test_validate_ok : resultOf (.validate s2 1#8 0x02#8) = some (.payload [0x38#8, 0x02#8]) := by decide
theorem test_validate_short :
    resultOf (.validate [0xFF#8, 0xFF#8, 0x01#8, 0x02#8, 0x01#8] 1#8 0x01#8) = some (.error (.mismatch .length)) := by
  decide

/-! ### The correlator (vectors of 2.6) -/

theorem test_await_handle_wraps :
    (nextOf (exec (.await 1#8 0x01#8 1#32) (holding [] 65535#16 1))).map (fun t => (t.result, t.nextHandle)) =
      some (.handle 65535#16, 0#16) := by decide
theorem test_await_busy :
    (nextOf (exec (.await 2#8 0x01#8 5#32) one)).map (fun t => (t.result, t.nextHandle)) =
      some (.error .busy, 1#16) := by decide
theorem test_chunk_resolves : effectOf (.chunk s1) one = some ([], [(0#16, .resolved [])], []) := by decide
theorem test_chunk_swallowed :
    effectOf (.chunk [0xFF#8, 0xFF#8, 0x02#8, 0x03#8, 0x01#8, 0xFA#8]) one =
      some (one.queue, [], [(0#16, .id)]) := by decide
theorem test_tick :
    effectOf .tick (holding [⟨0#16, 1#8, 1#8, 2#32⟩, ⟨1#16, 2#8, 1#8, 1#32⟩, ⟨2#16, 3#8, 1#8, 0#32⟩] 3#16 3) =
      some ([⟨0#16, 1#8, 1#8, 1#32⟩], [(1#16, .timedOut), (2#16, .timedOut)], []) := by decide
theorem test_cancel_behind_head :
    effectOf (.cancel 1#16) two = some ([⟨0#16, 1#8, 1#8, 50#32⟩], [(1#16, .cancelled)], []) := by decide
theorem test_cancel_not_pending : resultOf (.cancel 0#16) = some (.error .notPending) := by decide
theorem test_terr :
    effectOf .terr two =
      some ([], [(0#16, .rejected .transportError), (1#16, .rejected .transportError)], []) := by decide
theorem test_hwreset :
    nextOf (exec .hwreset { two with done := [(9#16, .timedOut)], diag := [(9#16, .id)] }) =
      some (State.resetWith two.params) := by decide

/-! ### Witnesses: each meets the hypotheses of the statement it is named after, at boundary values -/

/-- A command byte outside the eight. -/
theorem seven_is_no_opcode (c : Command) : 0x07#8 ≠ opcode c := by cases c <;> decide

theorem witness_DecodeOfEncodeReturnsTheInstruction :
    (Instr.await 255#8 0x92#8 0xFFFFFFFF#32).wellFormed = true ∧
      (Instr.build (-1000) 0x83#8 (.sync 0xFF#8 0#8 [⟨1#8, []⟩, ⟨1#8, []⟩])).wellFormed = true ∧
      (Instr.writeData 255#8 0xFF#8 [0xFF#8, 0xFF#8]).wellFormed = true ∧ (Instr.chunk []).wellFormed = true := by decide

theorem witness_BuiltFramesMatchTheirTableRow :
    ∃ t f, exec (.build 253 (opcode .ping) .none) State.reset = .next t ∧ t.result = .frame f := ⟨_, _, rfl, rfl⟩

theorem witness_EncodingIsInjectivePerVariant :
    ∃ p q : ParamRecord, variant p = variant q ∧ wf p = true ∧ wf q = true ∧ enc p = enc q :=
  ⟨.sync 1#8 2#8 [⟨3#8, [4#8, 5#8]⟩], .sync 1#8 2#8 [⟨3#8, [4#8, 5#8]⟩], by decide⟩

theorem witness_StepRunsTheDecodedInstruction :
    ∃ (s : State) (t : List Byte) (i : Instr), s.input = [t] ∧ decode t = .instr i ∧ i.wellFormed = true :=
  ⟨present State.reset s2, s2, .readData 1#8 0x38#8 2#8, by decide⟩

theorem witness_IdleStepChangesNothing : State.reset.input = [] := rfl

theorem witness_UnassignedCodesAreRefused :
    (present State.reset [0x0E#8, 0x55#8]).input = [[0x0E#8, 0x55#8]] ∧
      (present State.reset (0xFF#8 :: 0xFF#8 :: 1#8 :: 3#8 :: 0x07#8 :: [])).input =
        [0xFF#8 :: 0xFF#8 :: 1#8 :: 3#8 :: 0x07#8 :: []] ∧ ∀ c : Command, 0x07#8 ≠ opcode c :=
  ⟨rfl, rfl, seven_is_no_opcode⟩

theorem witness_PresentedScriptRunsInOrder :
    ∃ t, (∀ i ∈ [Instr.await 1#8 0x01#8 3#32, .tick, .chunk s1], i.wellFormed = true) ∧
      execAll [Instr.await 1#8 0x01#8 3#32, .tick, .chunk s1] { State.reset with input := [] } = .next t ∧
      t.done = [(0#16, .resolved [])] := ⟨_, by decide, rfl, by decide⟩

theorem witness_ParameterlessCommandsBuildSixBytes : (0#8).toNat ≤ 253 ∧ (253#8).toNat ≤ 253 := by decide

theorem witness_ReadAndWriteCommandsBuildTheirFrames :
    (253#8).toNat ≤ 253 ∧ (2#8 = 1#8 ∨ 2#8 = 2#8) ∧ ((1#8 : Byte) = 1#8 ∨ (1#8 : Byte) = 2#8) := by decide

theorem witness_SyncAndBulkCommandsBuildTheirFrames :
    (253#8).toNat ≤ 253 ∧
      (∀ e ∈ [SyncEntry.mk 1#8 (List.replicate 249 0#8)], e.data.length = (249#8).toNat) ∧
      [SyncEntry.mk 1#8 (List.replicate 249 0#8)].length * (1 + (249#8).toNat) ≤ 250 ∧ (bulkList 84).length ≤ 84 := by
  decide +kernel

theorem witness_CommandsToReservedIdsReportInvalidId :
    ((255#8 : Byte) = 254#8 ∨ (255#8 : Byte) = 255#8) ∧ ([1#8, 2#8] : List Byte).length = 2 ∧
      (∀ e ∈ ([] : List SyncEntry), e.data.length = (255#8).toNat) ∧
      ([] : List SyncEntry).length * (1 + (255#8).toNat) ≤ 250 ∧ (bulkList 84).length ≤ 84 := by decide

theorem witness_CommandsOutsideTheDataModelAreRefused :
    (0#8 : Byte) ≠ 1#8 ∧ (3#8 : Byte) ≠ 2#8 ∧ ([] : List Byte).length ≠ 1 ∧ ([1#8, 2#8, 3#8] : List Byte).length ≠ 2 ∧
      (∃ e ∈ [SyncEntry.mk 1#8 []], e.data.length ≠ (1#8).toNat) ∧
      (∀ e ∈ [SyncEntry.mk 1#8 (List.replicate 250 0#8)], e.data.length = (250#8).toNat) ∧
      250 < [SyncEntry.mk 1#8 (List.replicate 250 0#8)].length * (1 + (250#8).toNat) ∧ 84 < (bulkList 85).length := by
  decide +kernel

theorem witness_EncodeFollowsItsAdmissionOrder :
    (∀ c : Command, 0x07#8 ≠ opcode c) ∧ variant (.bulk []) ≠ variantOf .ping ∧
      (variant (.read 1#8 0#8) = variantOf .readData ∧ wf (.read 1#8 0#8) = false) ∧
      (variant (.read 1#8 2#8) = variantOf .readData ∧ wf (.read 1#8 2#8) = true) :=
  ⟨seven_is_no_opcode, by decide⟩

theorem witness_EncodeGivesTheBytesOfEachCommand :
    0x06#8 ∈ [0x01#8, 0x05#8, 0x06#8] ∧ 0x04#8 ∈ [0x03#8, 0x04#8] ∧ ([7#8, 8#8] : List Byte).length = 2 ∧
      ∀ e ∈ [SyncEntry.mk 1#8 (List.replicate 255 0#8)], e.data.length = (255#8).toNat := by
  decide +kernel

theorem witness_BuildFollowsTheFrameFormat :
    variant (.bulk (bulkList 84)) = variantOf .bulkRead ∧ wf (.bulk (bulkList 84)) = true ∧
      (ParamRecord.bulk (bulkList 84)).paramLength ≤ 252 ∧ (0 : Int) ≤ 253 ∧ (253 : Int) ≤ 253 := by decide

theorem witness_BuildRejectsIdsOutsideTheRange :
    variant .none = variantOf .ping ∧ wf .none = true ∧ ParamRecord.none.paramLength ≤ 252 ∧
      (-1 : Int) < 0 ∧ (253 : Int) < 254 ∧ (0 : Int) ≤ 0 := by decide

theorem witness_RefusalsComeBeforeErrors :
    (∀ c : Command, 0x07#8 ≠ opcode c) ∧ variant .none ≠ variantOf .readData ∧
      (variant (.write 1#8 []) = variantOf .regWrite ∧ wf (.write 1#8 []) = false) ∧
      (variant (.bulk (bulkList 85)) = variantOf .bulkRead ∧ wf (.bulk (bulkList 85)) = true ∧
        252 < (ParamRecord.bulk (bulkList 85)).paramLength) ∧
      ∃ t, exec (.build 254 0x01#8 .none) State.reset = .next t ∧ t.result = .error .invalidId :=
  ⟨seven_is_no_opcode, by decide, by decide, by decide, _, rfl, rfl⟩

theorem witness_BuiltFramesMeetTheirGuarantees :
    ∃ t f, exec (.build 0 (opcode .readData) (.read 0xFF#8 1#8)) State.reset = .next t ∧ t.result = .frame f :=
  ⟨_, _, rfl, rfl⟩

theorem witness_ParseInvertsBuild :
    ∃ t f, exec (.build 253 (opcode .regWrite) (.write 0x2A#8 [0xFF#8, 0x0F#8])) State.reset = .next t ∧
      t.result = .frame f := ⟨_, _, rfl, rfl⟩

theorem witness_ChecksumDependsOnTheMultisetOnly : ([1#8, 2#8, 3#8, 4#8] : List Byte).Perm [4#8, 3#8, 2#8, 1#8] := by decide

/-- One byte, the id; then the id and a parameter by `+1` and `-1`, both wrapping. -/
theorem witness_ChecksumDetectsOneChangedByte :
    ((0#8 : Byte) ≠ 255#8 ∧ (0#8 :: 3#8 :: 1#8 :: [] : List Byte) = [] ++ 0#8 :: [3#8, 1#8] ∧
        (255#8 :: 3#8 :: 1#8 :: [] : List Byte) = [] ++ 255#8 :: [3#8, 1#8]) ∧
      ((255#8 :: 4#8 :: 1#8 :: [0#8] : List Byte) = [] ++ 255#8 :: ([4#8, 1#8] ++ 0#8 :: []) ∧
        (0#8 :: 4#8 :: 1#8 :: [255#8] : List Byte) = [] ++ (255#8 + 1#8) :: ([4#8, 1#8] ++ (0#8 - 1#8) :: [])) := by decide

theorem witness_AnyAccumulatorOfEightBitsSuffices : 8 ≤ 8 ∧ 8 ≤ Config.sumWidth := by decide

theorem witness_ParseCutsByPosition : ([] : List Byte).length < 6 ∧ (s1.take 5).length < 6 := by decide

/-- A frame for each clause, the first five failing at exactly one check. -/
theorem witness_ValidateReportsTheFirstFailingCheck :
    ¬ HeaderGood [0xFF#8] ∧
      (HeaderGood [0xFF#8, 0xFF#8] ∧ ¬ IdGood [0xFF#8, 0xFF#8] 1#8) ∧
      (HeaderGood (s1.take 5) ∧ IdGood (s1.take 5) 1#8 ∧ ¬ LengthGood (s1.take 5)) ∧
      (HeaderGood s1 ∧ IdGood s1 1#8 ∧ LengthGood s1 ∧ ¬ CommandGood s1 2#8) ∧
      (HeaderGood (s2.set 7 0xBF#8) ∧ IdGood (s2.set 7 0xBF#8) 1#8 ∧ LengthGood (s2.set 7 0xBF#8) ∧
        CommandGood (s2.set 7 0xBF#8) 2#8 ∧ State.reset.params.verifyChecksum = true ∧
        ¬ ChecksumGood (s2.set 7 0xBF#8)) ∧
      (HeaderGood s1 ∧ IdGood s1 1#8 ∧ LengthGood s1 ∧ CommandGood s1 1#8 ∧ ChecksumGood s1) := by
  simp only [headerGood_iff, lengthGood_iff]
  unfold IdGood CommandGood ChecksumGood
  decide

theorem witness_OneCorruptedFieldGivesItsKind :
    validate true s2 1#8 2#8 = .ok [0x38#8, 0x02#8] ∧
      ∀ i : Fin s2.length, (0x77#8 : Byte) ≠ s2[i] := by decide

theorem witness_MissizedSequencesNeverValidate :
    (s1.take 5).length < 6 ∧ 258 < (List.replicate 259 0xFF#8 : List Byte).length ∧
      validate true s1 1#8 1#8 = .ok [] ∧ s1 ≠ [] := by decide +kernel

/-- Two sequences of 259 and 260 bytes that first differ at byte 258. -/
theorem witness_ValidateNeedsTheFirst259Bytes :
    258 < (List.replicate 258 0xFF#8 ++ [0#8] : List Byte).length ∧
      258 < (List.replicate 258 0xFF#8 ++ [1#8, 2#8] : List Byte).length ∧
      (List.replicate 258 0xFF#8 ++ [0#8] : List Byte).take 258 =
        (List.replicate 258 0xFF#8 ++ [1#8, 2#8] : List Byte).take 258 := by decide +kernel

theorem witness_PureOperationsTouchNoState :
    pureOperation (.validate s2 1#8 2#8) = true ∧ State.reset.params.verifyChecksum = two.params.verifyChecksum ∧
      ∃ t, exec (.validate s2 1#8 2#8) State.reset = .next t := ⟨rfl, rfl, _, rfl⟩

theorem witness_AwaitRegistersAnExpectation :
    (holding one.queue 65535#16 2).queue.length < (holding one.queue 65535#16 2).params.nExpect ∧
      State.reset.queue.length < State.reset.params.nExpect := by decide

theorem witness_AwaitOnAFullQueueReportsBusy : two.params.nExpect ≤ two.queue.length := by decide

theorem witness_EventsWithoutListenerChangeNothing : State.reset.queue = [] := rfl

theorem witness_MatchingChunkResolvesTheHead :
    ∃ e q, two.queue = e :: q ∧ ([] : List Byte).length ≤ 252 ∧ (List.replicate 252 0xFF#8 : List Byte).length ≤ 252 ∧
      0xFB#8 = negatedSum (e.expId :: BitVec.ofNat 8 (0 + 3) :: e.expCmd :: []) :=
  ⟨_, _, rfl, by decide, by decide +kernel, by decide⟩

theorem witness_MismatchingChunkIsSwallowed :
    two.queue = ⟨0#16, 0x01#8, 0x01#8, 50#32⟩ :: [⟨1#16, 0x02#8, 0x01#8, 50#32⟩] ∧ two.params.verifyChecksum = true ∧
      ¬ HeaderGood [] ∧
      (HeaderGood (s1.set 2 2#8) ∧ ¬ IdGood (s1.set 2 2#8) 1#8) ∧
      (HeaderGood (s1 ++ [0#8]) ∧ IdGood (s1 ++ [0#8]) 1#8 ∧ ¬ LengthGood (s1 ++ [0#8])) ∧
      (HeaderGood s2 ∧ IdGood s2 1#8 ∧ LengthGood s2 ∧ ¬ CommandGood s2 1#8) ∧
      (HeaderGood (s1.set 5 0xFA#8) ∧ IdGood (s1.set 5 0xFA#8) 1#8 ∧ LengthGood (s1.set 5 0xFA#8) ∧
        CommandGood (s1.set 5 0xFA#8) 1#8 ∧ ¬ ChecksumGood (s1.set 5 0xFA#8)) := by
  simp only [headerGood_iff, lengthGood_iff]
  unfold IdGood CommandGood ChecksumGood
  decide

/-- Two expectations that share handle 0 (log 7). -/
def twins : State := holding [⟨0#16, 0x01#8, 0x01#8, 50#32⟩, ⟨0#16, 0x02#8, 0x01#8, 9#32⟩] 1#16 2

/-- The head's handle, the other's, and one that two records share: there the choice counter moves. -/
theorem witness_CancelEndsOnePendingExpectation :
    (∃ e ∈ two.queue, e.handle = 0#16) ∧ (∃ e ∈ two.queue, e.handle = 1#16) ∧
      (∀ x ∈ ([] ++ [⟨1#16, 0x02#8, 0x01#8, 50#32⟩] : List Expectation), x.handle ≠ 0#16) ∧
      (∃ e ∈ twins.queue, e.handle = 0#16) ∧ pendingCount 0#16 twins.queue = 2 ∧
      (nextOf (exec (.cancel 0#16) twins)).map (fun t => (t.freeIdx, t.done, t.result)) =
        some (1, [(0#16, .cancelled)], .ok) := ⟨by decide, by decide, by decide, by decide, by decide, rfl⟩

theorem witness_CancelOfNoPendingHandleIsHarmless : ∀ e ∈ two.queue, e.handle ≠ 2#16 := by decide

theorem witness_InvariantHoldsAtReset :
    Params.legal { verifyChecksum := false, nExpect := 1 } = true ∧
      Params.legal { verifyChecksum := true, nExpect := 65535 } = true := by decide

theorem witness_EveryStepKeepsTheInvariant :
    StateInv one ∧ ∃ t, step (present one (0x09#8 :: s1)) = .next t ∧ t.done = [(0#16, .resolved [])] := by
  refine ⟨⟨rfl, by simp [CapacityKept, one, holding], ?_, ?_, ?_⟩, _, rfl, by decide⟩
  · intro e he
    simp [one, holding] at he
    exact ⟨.ping, by rw [he]; rfl⟩
  · intro d hd; cases hd
  · intro d hd; cases hd

theorem witness_ParametersStayAndStreamsOnlyGrow :
    Instr.terr ≠ .hwreset ∧ ∃ t, exec .terr two = .next t := ⟨by decide, _, rfl⟩

theorem witness_QueueKeepsIdentitiesInOrder : ∃ t, exec (.await 1#8 0x01#8 5#32) State.reset = .next t := ⟨_, rfl⟩

theorem witness_EveryExpectationEndsExactlyOnce :
    Instr.cancel 1#16 ≠ .hwreset ∧ ∃ t, exec (.cancel 1#16) two = .next t := ⟨by decide, _, rfl⟩

/-- A record at the last place, and one whose counter is 0. -/
theorem witness_ExpectationTimesOutAtItsDeadline :
    (∃ pre e post, two.queue = pre ++ e :: post ∧ 49 < max e.remaining.toNat 1 ∧ post = []) ∧
      ∃ e : Expectation, (holding [e] 1#16 1).queue = [] ++ e :: [] ∧ e.remaining = 0#32 ∧ 0 < max e.remaining.toNat 1 :=
  ⟨⟨[⟨0#16, 1#8, 1#8, 50#32⟩], ⟨1#16, 2#8, 1#8, 50#32⟩, [], rfl, by decide, rfl⟩, ⟨0#16, 1#8, 1#8, 0#32⟩, rfl, rfl, by decide⟩

/-- Two TICKs, a chunk that does not match and another handle's CANCEL, before a deadline of three. -/
theorem witness_HeadEndsByTheFirstMatchOrItsDeadline :
    ∃ (s t : State) (e : Expectation) (q : List Expectation), s.queue = e :: q ∧
      execAll [.tick, .chunk s2, .cancel 1#16, .tick] s = .next t ∧
      [Instr.tick, .chunk s2, .cancel 1#16, .tick].count .tick < max e.remaining.toNat 1 ∧
      [Instr.tick, .chunk s2, .cancel 1#16, .tick].count .tick + 1 = max e.remaining.toNat 1 ∧
      (∀ i ∈ [Instr.tick, .chunk s2, .cancel 1#16, .tick], i ≠ .terr ∧ i ≠ .hwreset ∧ i ≠ .cancel e.handle ∧
        ∀ f, i = .chunk f → ∀ pay, validate s.params.verifyChecksum f e.expId e.expCmd ≠ .ok pay) ∧
      validate s.params.verifyChecksum s1 e.expId e.expCmd = .ok [] := by
  refine ⟨holding [⟨0#16, 1#8, 1#8, 3#32⟩, ⟨1#16, 2#8, 1#8, 9#32⟩] 2#16 2, _, _, _, rfl, rfl, by decide, by decide, ?_, by decide⟩
  intro i hi
  have hv : validate true s2 1#8 1#8 = .err .command := by decide
  simp only [List.mem_cons, List.not_mem_nil, or_false] at hi
  rcases hi with rfl | rfl | rfl | rfl
  · exact ⟨by decide, by decide, by decide, fun f hf => by cases hf⟩
  · refine ⟨by decide, by decide, by decide, fun f hf pay => ?_⟩
    cases hf
    show validate true s2 1#8 1#8 ≠ _
    rw [hv]; exact fun h => by cases h
  · exact ⟨by decide, by decide, by decide, fun f hf => by cases hf⟩
  · exact ⟨by decide, by decide, by decide, fun f hf => by cases hf⟩

/-- Nobody behind the head, one that expires with it, one that matches the chunk too, one that does not. -/
theorem witness_SimultaneousChunkAndTickAdmitBothOrders :
    (holding [⟨0#16, 1#8, 1#8, 1#32⟩, ⟨1#16, 1#8, 1#8, 2#32⟩] 2#16 2).queue =
        ⟨0#16, 1#8, 1#8, 1#32⟩ :: [⟨1#16, 1#8, 1#8, 2#32⟩] ∧
      (1#32).toNat ≤ 1 ∧ (0#32).toNat ≤ 1 ∧ validate true s1 1#8 1#8 = .ok [] ∧
      survivors [] = [] ∧ survivors [⟨1#16, 2#8, 1#8, 1#32⟩] = [] ∧
      survivors [⟨1#16, 1#8, 1#8, 2#32⟩] = [⟨1#16, 1#8, 1#8, 1#32⟩] ∧ validate true s1 1#8 1#8 = .ok [] ∧
      survivors [⟨1#16, 2#8, 1#8, 2#32⟩] = [⟨1#16, 2#8, 1#8, 1#32⟩] ∧ validate true s1 2#8 1#8 = .err .id := by decide

theorem witness_SimultaneousChunkAndOperationAdmitBothOrders :
    (∃ e q, two.queue = e :: q ∧ validate two.params.verifyChecksum s1 e.expId e.expCmd = .ok [] ∧
        ∀ x ∈ q, x.handle ≠ e.handle) ∧
      State.reset.queue = [] ∧ 1 ≤ State.reset.params.nExpect ∧
      validate State.reset.params.verifyChecksum s1 1#8 (opcode .ping) = .ok [] :=
  ⟨⟨_, _, rfl, by decide, by decide⟩, by decide⟩

theorem witness_BuiltRequestResolvesItsOwnExpectation :
    (∃ t, exec (.build (Int.ofNat (1#8).toNat) (opcode .readData) (.read 0x38#8 2#8)) State.reset = .next t ∧
      t.result = .frame s2) ∧ State.reset.queue = [] ∧ State.reset.params.legal = true := ⟨⟨_, rfl, rfl⟩, rfl, rfl⟩

theorem witness_AcceptanceOrderIsKeptUntilTheCounterWraps :
    AcceptanceOrdered two ∧ (∀ e ∈ two.queue, age two e < 65535) ∧ ∃ t, exec .tick two = .next t := by
  refine ⟨?_, by decide, _, rfl⟩
  unfold AcceptanceOrdered
  decide

theorem witness_OutcomeCodesTellKindsApart :
    (ErrorKind.mismatch .id).code = (ErrorKind.mismatch .id).code ∧ Refusal.unknownCommand.code = some 0x20#8 := by decide

theorem witness_PositionsTravelLowByteFirst : (253#8).toNat ≤ 253 := by decide

end Sys2Proof.Tests
end

section
/-! PROOFS. What BUILD answers for an admitted call: the frame of R60 to R63, given by the command and the record. -/

namespace Sys2Proof.Machine

open Sys2Proof.Safety

/-- R60 to R63: the frame assembled for a well-formed record has `p + 3` as its length byte and the checksum over id,
length, opcode and parameter bytes, the header left out. -/
theorem assemble_enc_eq_frameOf (id cmd : Byte) {p : ParamRecord} (hw : wf p = true) :
    assemble id cmd (enc p) = frameOf id (BitVec.ofNat 8 (p.paramLength + 3)) cmd (enc p) := by
  rw [assemble_eq_frameOf, length_enc hw]

/-- R100, R101: a call of the command's own variant, well-formed and of at most 252 parameter bytes, is admitted, so that
only the id test is left to BUILD. -/
theorem exec_build_of_admitted (id : Int) {c : Command} {p : ParamRecord} (s : State) (hv : variant p = variantOf c)
    (hw : wf p = true) (hp : p.paramLength ≤ 252) :
    exec (.build id (opcode c) p) s =
      if 0 ≤ id ∧ id ≤ 253 then .next (respond s (.frame (assemble (BitVec.ofInt 8 id) (opcode c) (enc p))))
      else .next (report s .invalidId) := by
  have hlen : (enc p).length ≤ 252 := length_enc hw ▸ hp
  rw [exec_build, buildFrame_of_checkCall s (checkCall_opcode c p hv hw) hlen]

/-- Settles O17: the id test of R101 passes, and the assembled frame is the one of R60 to R63. -/
theorem buildFollowsTheFrameFormat : Obligations.BuildFollowsTheFrameFormat := by
  unfold Obligations.BuildFollowsTheFrameFormat
  intro id c p s hv hw hp hlo hhi
  rw [exec_build_of_admitted id s hv hw hp, if_pos ⟨hlo, hhi⟩, assemble_enc_eq_frameOf _ _ hw]
  rfl

end Sys2Proof.Machine
end

section
/-! PROOFS. The refusals of the admission tests of R88 and what ENCODE makes of each outcome of these tests. -/

namespace Sys2Proof.Machine

/-! ### The three refusals of `checkCall`; what it accepts is `checkCall_ok_iff` -/

theorem checkCall_unknownCommand {cmd : Byte} (p : ParamRecord) (h : ∀ c : Command, cmd ≠ opcode c) :
    checkCall cmd p = .error .unknownCommand := by
  rw [checkCall, commandOf_eq_none h]

theorem checkCall_variantMismatch {c : Command} {p : ParamRecord} (hv : variant p ≠ variantOf c) :
    checkCall (opcode c) p = .error .variantMismatch := by
  simp only [checkCall, commandOf_opcode, if_pos hv]

theorem checkCall_illFormedParams {c : Command} {p : ParamRecord} (hv : variant p = variantOf c) (hw : wf p = false) :
    checkCall (opcode c) p = .error .illFormedParams := by
  simp [checkCall, hv, hw]

/-! ### ENCODE passes a refusal on and answers an admitted call (R88) -/

theorem exec_encode_of_checkCall_error {cmd : Byte} {p : ParamRecord} {r : Refusal} (s : State)
    (h : checkCall cmd p = .error r) : exec (.encode cmd p) s = .refused r := by
  simp only [exec, execEncode, h]

theorem exec_encode_of_checkCall_ok {cmd : Byte} {p : ParamRecord} {c : Command} (s : State)
    (h : checkCall cmd p = .ok c) : exec (.encode cmd p) s = .next (respond s (.paramBytes (enc p))) := by
  simp only [exec, execEncode, h]

/-- Settles O15: each clause is one outcome of `checkCall`, in the order of its tests. -/
theorem encodeFollowsItsAdmissionOrder : Obligations.EncodeFollowsItsAdmissionOrder := by
  unfold Obligations.EncodeFollowsItsAdmissionOrder
  intro cmd p s
  refine ⟨fun hc => ?unknown, ?known⟩
  case unknown => exact exec_encode_of_checkCall_error s (checkCall_unknownCommand p hc)
  case known =>
    rintro c rfl
    refine ⟨fun hv => ?mismatch, fun hv hw => ?illFormed, fun hv hw => ?admitted⟩
    case mismatch => exact exec_encode_of_checkCall_error s (checkCall_variantMismatch hv)
    case illFormed => exact exec_encode_of_checkCall_error s (checkCall_illFormedParams hv hw)
    case admitted => exact exec_encode_of_checkCall_ok s (checkCall_opcode c p hv hw)

end Sys2Proof.Machine
end

section
/-! PROOFS. The id test of BUILD over the integers (R101). -/

namespace Sys2Proof.Machine

/-- Settles O18: an admitted call leaves only the id test, and its two branches are the two clauses. -/
theorem buildRejectsIdsOutsideTheRange : Obligations.BuildRejectsIdsOutsideTheRange := by
  unfold Obligations.BuildRejectsIdsOutsideTheRange
  intro id c p s hv hw hp
  rw [exec_build_of_admitted id s hv hw hp]
  refine ⟨fun hout => ?outside, fun hlo hhi => ?inside⟩
  case outside =>
    have hid : ¬(0 ≤ id ∧ id ≤ 253) := by omega
    rw [if_neg hid]
    rfl
  case inside => exact ⟨_, if_pos ⟨hlo, hhi⟩⟩

end Sys2Proof.Machine
end

section
/-! PROOFS. The value CHECKSUM answers (R110) and when that value is zero (R112). -/

namespace Sys2Proof.Machine

/-- Settles O22: the answer is the byte `checksum`, whose value is the negated sum of R110. -/
theorem checksumIsTheNormalisedNegatedSum : Obligations.ChecksumIsTheNormalisedNegatedSum := by
  unfold Obligations.ChecksumIsTheNormalisedNegatedSum
  intro id l cmd pb s
  refine ⟨checksum id l cmd pb, rfl, ?value⟩
  case value => rw [checksum_toNat, sum_map_toNat]

/-- Settles O23: the checksum is the byte that brings the sum to a multiple of 256, and the zero byte brings it there
exactly when the sum is one already. -/
theorem checksumIsZeroExactlyOnFullSums : Obligations.ChecksumIsZeroExactlyOnFullSums := by
  unfold Obligations.ChecksumIsZeroExactlyOnFullSums
  intro id l cmd pb
  rw [eq_comm, eq_checksum_iff, sum_map_toNat, BitVec.toNat_zero, Nat.add_zero]

end Sys2Proof.Machine
end

section
/-! PROOFS. A chunk that validates against the head of the queue resolves it (R146). -/

namespace Sys2Proof.Machine

/-- R146: the state after a chunk that VALIDATE accepts for the head's id and command. -/
theorem exec_chunk_of_validate_ok {s : State} {e : Expectation} {q : List Expectation} {f pay : List Byte}
    (hq : s.queue = e :: q) (hv : validate s.params.verifyChecksum f e.expId e.expCmd = .ok pay) :
    exec (.chunk f) s = .next (terminate s q [(e.handle, .resolved pay)]) := by
  simp only [exec, execChunk, hq, hv]

/-- Settles O38: the chunk has the fields that VALIDATE accepts for the head (`validate_ok_iff`), its length byte without
wrapping since the payload has at most 252 bytes. -/
theorem matchingChunkResolvesTheHead : Obligations.MatchingChunkResolvesTheHead := by
  unfold Obligations.MatchingChunkResolvesTheHead
  intro s e q pay k hq hlen hk
  refine exec_chunk_of_validate_ok hq ((validate_ok_iff ..).2 ⟨_, k, rfl, lengthByte_toNat hlen, fun hver => ?checksum⟩)
  case checksum => rw [hk hver, checksum_eq_negatedSum]

end Sys2Proof.Machine
end

section
/-! PROOFS. The order of refusals and errors in BUILD and AWAIT (R175). -/

namespace Sys2Proof.Machine

/-- R100, R104: BUILD passes a refusal of the admission tests on, whatever the id. -/
theorem exec_build_of_checkCall_error (id : Int) {cmd : Byte} {p : ParamRecord} {r : Refusal} (s : State)
    (h : checkCall cmd p = .error r) : exec (.build id cmd p) s = .refused r := by
  rw [exec_build, buildFrame, h]

/-- R103: BUILD refuses an admitted record of more than 252 parameter bytes, whatever the id. -/
theorem exec_build_of_tooLong (id : Int) {c : Command} {p : ParamRecord} (s : State) (hv : variant p = variantOf c)
    (hw : wf p = true) (hp : 252 < p.paramLength) : exec (.build id (opcode c) p) s = .refused .paramTooLong := by
  have hlen : (enc p).length > Config.maxParams := (length_enc hw).symm ▸ hp
  rw [exec_build, buildFrame, checkCall_opcode c p hv hw]
  exact if_pos hlen

/-- R101, R170: the only kind BUILD reports is InvalidId. -/
theorem exec_build_error {id : Int} {cmd : Byte} {p : ParamRecord} {s t : State} {k : ErrorKind}
    (h : exec (.build id cmd p) s = .next t) (hk : t.result = .error k) : k = .invalidId := by
  obtain ⟨-, -, ⟨-, -, rfl⟩ | ⟨-, rfl⟩⟩ := buildFrame_next h
  · cases hk
  · cases hk; rfl

/-- R142, R175: AWAIT of an unknown command is refused before the queue is looked at. -/
theorem exec_await_unknownCommand (id : Byte) {cmd : Byte} (ms : Millis) (s : State)
    (h : ∀ c : Command, cmd ≠ opcode c) : exec (.await id cmd ms) s = .refused .unknownCommand := by
  simp only [exec, execAwait, commandOf_eq_none h]

/-- Settles O19: the three refusals of `checkCall` and the length test come before the id test, which alone gives an error;
AWAIT looks the command up first. -/
theorem refusalsComeBeforeErrors : Obligations.RefusalsComeBeforeErrors := by
  unfold Obligations.RefusalsComeBeforeErrors
  refine ⟨fun id cmd p s hc => ?unknown, fun id c p s hv => ?mismatch, fun id c p s hv hw => ?illFormed,
    fun id c p s hv hw hp => ?tooLong, fun id cmd p s t k h hk => ?invalidIdOnly, fun id cmd ms s hc => ?await⟩
  case unknown => exact exec_build_of_checkCall_error id s (checkCall_unknownCommand p hc)
  case mismatch => exact exec_build_of_checkCall_error id s (checkCall_variantMismatch hv)
  case illFormed => exact exec_build_of_checkCall_error id s (checkCall_illFormedParams hv hw)
  case tooLong => exact exec_build_of_tooLong id s hv hw hp
  case invalidIdOnly => exact exec_build_error h hk
  case await => exact exec_await_unknownCommand id ms s hc

end Sys2Proof.Machine
end

section
/-! PROOFS. What VALIDATE reports for each outcome of its chain of checks (R122, R174). -/

namespace Sys2Proof.Machine

open Sys2Proof.Safety

/-- R122, R130: a failed check is returned to the caller as its kind. -/
theorem exec_validate_of_err {f : List Byte} {id cmd : Byte} {s : State} {k : MismatchKind}
    (h : validate s.params.verifyChecksum f id cmd = .err k) :
    exec (.validate f id cmd) s = .next (report s (.mismatch k)) := by
  simp only [exec, execValidate, h]

/-- R127: the payload of an accepted frame is the result. -/
theorem exec_validate_of_ok {f : List Byte} {id cmd : Byte} {s : State} {pay : List Byte}
    (h : validate s.params.verifyChecksum f id cmd = .ok pay) :
    exec (.validate f id cmd) s = .next (respond s (.payload pay)) := by
  simp only [exec, execValidate, h]

/-- Settles O29: each clause says which branch of the chain of checks (`validate_eq_checks`) is taken. -/
theorem validateReportsTheFirstFailingCheck : Obligations.ValidateReportsTheFirstFailingCheck := by
  unfold Obligations.ValidateReportsTheFirstFailingCheck
  intro f id cmd s
  have hchain := validate_eq_checks s.params.verifyChecksum f id cmd
  refine ⟨fun hh => ?header, fun hh hi => ?id, fun hh hi hl => ?length, fun hh hi hl hc => ?command,
    fun hh hi hl hc hv hk => ?checksum, fun hh hi hl hc hk => ?payload⟩
  case header => exact exec_validate_of_err (by simpa [hh] using hchain)
  case id => exact exec_validate_of_err (by simpa [hh, hi] using hchain)
  case length => exact exec_validate_of_err (by simpa [hh, hi, hl] using hchain)
  case command => exact exec_validate_of_err (by simpa [hh, hi, hl, hc] using hchain)
  case checksum => exact exec_validate_of_err (by simpa [hh, hi, hl, hc, hv, hk] using hchain)
  case payload =>
    have hsum : ¬(s.params.verifyChecksum = true ∧ ¬ChecksumGood f) := fun ⟨hv, hbad⟩ => hbad (hk hv)
    exact exec_validate_of_ok (by simpa only [hh, hi, hl, hc, hsum, not_true_eq_false, if_false] using hchain)

end Sys2Proof.Machine
end

section
/-! PROOFS. A chunk is tried against the head of the queue alone (R177). -/

namespace Sys2Proof.Machine

/-- R147: the state after a chunk that VALIDATE rejects for the head's id and command. -/
theorem exec_chunk_of_validate_err {s : State} {e : Expectation} {q : List Expectation} {f : List Byte} {k : MismatchKind}
    (hq : s.queue = e :: q) (hv : validate s.params.verifyChecksum f e.expId e.expCmd = .err k) :
    exec (.chunk f) s = .next (diagnose s e.handle k) := by
  simp only [exec, execChunk, hq, hv]

/-- Settles O40: the verdict is one on the chunk, the parameters and the head, so it is taken before the rest of the queue
is given; an accepting verdict ends the head, a rejecting one leaves it. -/
theorem chunksTryTheHeadOnly : Obligations.ChunksTryTheHeadOnly := by
  unfold Obligations.ChunksTryTheHeadOnly
  intro f s e
  cases hv : validate s.params.verifyChecksum f e.expId e.expCmd with
  | ok pay =>
    exact ⟨true, s.done ++ [(e.handle, Completion.resolved pay)], s.diag,
      fun q => exec_chunk_of_validate_ok (s := { s with queue := e :: q }) rfl hv⟩
  | err k =>
    exact ⟨false, s.done, s.diag ++ [(e.handle, k)],
      fun q => exec_chunk_of_validate_err (s := { s with queue := e :: q }) rfl hv⟩

end Sys2Proof.Machine
end

section
/-! PROOFS. The decoder reads back what the encoder writes, instruction by instruction (R63 to R65, R73). -/

namespace Sys2Proof

/-! ### Words of a fixed number of bytes (log 3) -/

/-- A word of `k` bytes is read back from its bytes, lowest first. -/
theorem ofNat_valueLE_bytesLE (k : Nat) (x : BitVec (8 * k)) : BitVec.ofNat (8 * k) (valueLE (bytesLE k x.toNat)) = x := by
  have hsize : x.toNat < 256 ^ k := by
    have := x.isLt
    rwa [pow_mul] at this
  rw [valueLE_bytesLE, Nat.mod_eq_of_lt hsize, BitVec.ofNat_toNat, BitVec.setWidth_eq]

theorem decodeAwait_bytesLE (id cmd : Byte) (ms : Millis) :
    decodeAwait (id :: cmd :: bytesLE 4 ms.toNat) = .instr (.await id cmd ms) :=
  congrArg (fun x => Decoded.instr (.await id cmd x)) (ofNat_valueLE_bytesLE 4 ms)

theorem decodeCancel_bytesLE (h : Handle) : decodeCancel (bytesLE 2 h.toNat) = .instr (.cancel h) :=
  congrArg (fun x => Decoded.instr (.cancel x)) (ofNat_valueLE_bytesLE 2 h)

/-! ### The calls that carry a parameter record -/

theorem decodeEncode_encodeRecord (cmd : Byte) (p : ParamRecord) :
    decodeEncode (cmd :: encodeRecord p) = .instr (.encode cmd p) := by
  rw [decodeEncode, decodeRecord_encodeRecord]
  rfl

theorem decodeBuild_encodeRecord (id : Int) (cmd : Byte) (p : ParamRecord) :
    decodeBuild (encodeInt id ++ cmd :: encodeRecord p) = .instr (.build id cmd p) := by
  simp only [decodeBuild, decodeInt_encodeInt, decodeRecord_encodeRecord]
  rfl

/-! ### The two commands with entries -/

theorem decode_encode_syncWrite (id r dl : Byte) {es : List SyncEntry} (h : ∀ e ∈ es, e.data.length = dl.toNat) :
    decode (encode (.syncWrite id r dl es)) = .instr (.syncWrite id r dl es) := by
  rw [encode, decode_encodeFrame, decodeParams, decodeSync_enc id r dl es h]
  rfl

theorem decode_encode_bulkRead (id : Byte) (es : List BulkEntry) :
    decode (encode (.bulkRead id es)) = .instr (.bulkRead id es) := by
  rw [encode, decode_encodeFrame, decodeParams, Machine.enc, decodeBulk_flatMap]
  rfl

/-- The entries of a well-formed SYNC_WRITE record all have `dataLength` bytes (R90). -/
theorem wf_sync_iff {r dl : Byte} {es : List SyncEntry} :
    Machine.wf (.sync r dl es) = true ↔ ∀ e ∈ es, e.data.length = dl.toNat := by
  simp [Machine.wf]

/-- Decoding undoes encoding; only SYNC_WRITE, whose frame does not count the bytes of each entry, needs the record to be
well-formed. -/
theorem decode_encode_of_wellFormed {i : Instr} (h : i.wellFormed = true) : decode (encode i) = .instr i := by
  cases i with
  | ping id => exact decode_encodeFrame id .ping .none
  | readData id r l => exact decode_encodeFrame id .readData (.read r l)
  | writeData id r d => exact decode_encodeFrame id .writeData (.write r d)
  | regWrite id r d => exact decode_encodeFrame id .regWrite (.write r d)
  | action id => exact decode_encodeFrame id .action .none
  | reset id => exact decode_encodeFrame id .reset .none
  | syncWrite id r dl es =>
    have hrecord : Machine.wf (.sync r dl es) = true := (Bool.and_eq_true_iff.1 h).1
    exact decode_encode_syncWrite id r dl (wf_sync_iff.1 hrecord)
  | bulkRead id es => exact decode_encode_bulkRead id es
  | encode cmd p => exact decodeEncode_encodeRecord cmd p
  | build id cmd p => exact decodeBuild_encodeRecord id cmd p
  | checksum => rfl
  | chkverify => rfl
  | parse => rfl
  | validate => rfl
  | await id cmd ms => exact decodeAwait_bytesLE id cmd ms
  | cancel hd => exact decodeCancel_bytesLE hd
  | chunk => rfl
  | tick => rfl
  | terr => rfl
  | hwreset => rfl

/-- Settles O2. -/
theorem decodeOfEncodeReturnsTheInstruction : Obligations.DecodeOfEncodeReturnsTheInstruction := by
  unfold Obligations.DecodeOfEncodeReturnsTheInstruction
  exact fun _ h => decode_encode_of_wellFormed h

end Sys2Proof
end

section
/-! PROOFS. Every step keeps the invariant of the block (R33). -/

namespace Sys2Proof.Machine

open Sys2Proof.Safety

/-- A step is idle or runs an instruction on the state with one transaction taken. -/
theorem step_cases {s t : State} (h : step s = .next t) :
    t = s ∨ ∃ i rest, exec i { s with input := rest } = .next t := by
  unfold step at h
  split at h
  · cases h; exact .inl rfl
  · split at h
    · exact .inr ⟨_, _, h⟩
    · rename_i e _
      cases e <;> cases h

/-- A record whose identity was pending before stores one of the eight opcodes if all records before did. -/
theorem commandsLegal_of_sublist {s t : State} (hs : (t.queue.map identity).Sublist (s.queue.map identity))
    (h : CommandsLegal s) : CommandsLegal t := by
  intro e he
  obtain ⟨e', he', hid⟩ := List.mem_map.1 (hs.subset (List.mem_map_of_mem he))
  have hcmd : e'.expCmd = e.expCmd := congrArg (fun x => x.2.2) hid
  exact hcmd ▸ h e' he'

/-- An accepted AWAIT fills a free place with one of the eight opcodes. -/
theorem stateInv_register {s : State} (id : Byte) (c : Command) (ms : Millis) (hl : s.queue.length < s.params.nExpect)
    (h : StateInv s) : StateInv (register s id (opcode c) ms) where
  params := h.params
  capacity := by simpa [CapacityKept] using hl
  commands := by
    intro e he
    rw [register_queue, List.mem_append, List.mem_singleton] at he
    obtain hold | rfl := he
    · exact h.commands e hold
    · exact ⟨c, rfl⟩
  rejections := h.rejections
  payloads := h.payloads

theorem stateInv_resetWith {p : Params} (h : p.legal = true) : StateInv (State.resetWith p) where
  params := h
  capacity := Nat.zero_le _
  commands := fun _ he => nomatch he
  rejections := fun _ hd => nomatch hd
  payloads := fun _ hd => nomatch hd

/-- The invariant speaks of the queue, the completions and the parameters only. -/
theorem stateInv_congr {s t : State} (hq : t.queue = s.queue) (hd : t.done = s.done) (hp : t.params = s.params)
    (h : StateInv s) : StateInv t where
  params := hp ▸ h.params
  capacity := by simpa only [CapacityKept, hq, hp] using h.capacity
  commands := by simpa only [CommandsLegal, hq] using h.commands
  rejections := by simpa only [RejectionsFromTransport, hd] using h.rejections
  payloads := by simpa only [PayloadsFit, hd] using h.payloads

/-- Every effect an instruction can have keeps the invariant. -/
theorem stateInv_of_effect {i : Instr} {s t : State} (he : Effect i s t) (h : StateInv s) : StateInv t := by
  cases he with
  | quiet hq hn hd hg hp hin => exact stateInv_congr hq hd hp h
  | accepted id c ms hi hl ht => exact ht ▸ stateInv_register id c ms hl h
  | ended gone hn hd hg hp hin hs hperm hrej =>
    have hlen : t.queue.length ≤ s.queue.length := by simpa using hs.length_le
    refine ⟨hp ▸ h.params, ?capacity, commandsLegal_of_sublist hs h.commands, ?rejections, ?payloads⟩
    case capacity =>
      rw [CapacityKept, hp]
      exact hlen.trans h.capacity
    case rejections =>
      intro d hmem
      obtain hold | hnew := List.mem_append.1 (hd ▸ hmem)
      · exact h.rejections d hold
      · exact (hrej d hnew).1
    case payloads =>
      intro d hmem
      obtain hold | hnew := List.mem_append.1 (hd ▸ hmem)
      · exact h.payloads d hold
      · exact (hrej d hnew).2
  | reset hi ht =>
    rw [ht]
    exact stateInv_congr (s := State.resetWith s.params) rfl rfl rfl (stateInv_resetWith h.params)

/-- Settles O48: an idle step changes nothing, any other is one instruction (`exec_effect`). -/
theorem everyStepKeepsTheInvariant : Obligations.EveryStepKeepsTheInvariant := by
  unfold Obligations.EveryStepKeepsTheInvariant
  intro s t h hstep
  obtain rfl | ⟨i, rest, hx⟩ := step_cases hstep
  · exact h
  · have htaken : StateInv { s with input := rest } := stateInv_congr (s := s) rfl rfl rfl h
    exact stateInv_of_effect (exec_effect hx) htaken

/-- Settles O47. -/
theorem invariantHoldsAtReset : Obligations.InvariantHoldsAtReset := by
  unfold Obligations.InvariantHoldsAtReset
  exact ⟨stateInv_resetWith (by decide), fun _ h => stateInv_resetWith h⟩

end Sys2Proof.Machine
end

section
/-! PROOFS. Every expectation ends exactly once (R30, R151). -/

namespace Sys2Proof.Machine

open Sys2Proof.Safety

theorem registered_of_length_le {s t : State} (h : t.queue.length ≤ s.queue.length) : registered s t = [] :=
  if_neg (Nat.not_lt.2 h)

theorem registered_register (s : State) (id cmd : Byte) (ms : Millis) :
    registered s (register s id cmd ms) = [s.nextHandle] :=
  if_pos (by simp)

/-- Settles O51: an accepted AWAIT puts the registered handle at the tail, and terminal transitions move handles from the
queue to the completions (`Effect.ended`). -/
theorem everyExpectationEndsExactlyOnce : Obligations.EveryExpectationEndsExactlyOnce := by
  unfold Obligations.EveryExpectationEndsExactlyOnce
  intro i s t hi h
  cases exec_effect h with
  | quiet hq hn hd hg hp hin =>
    refine ⟨[], by simpa using hd, ?_⟩
    simp [registered_of_length_le (s := s) (t := t) (by rw [hq]), hq]
  | accepted id c ms _ _ ht =>
    subst ht
    exact ⟨[], by simp, by simp [registered_register]⟩
  | ended gone hn hd hg hp hin hs hperm hrej =>
    refine ⟨gone, hd, ?_⟩
    rw [registered_of_length_le (by simpa using hs.length_le), List.append_nil]
    exact hperm
  | reset hreset _ => exact absurd hreset hi

end Sys2Proof.Machine
end

section
/-! PROOFS. Acceptance order and distinct handles (R23, R33 (2) and (3); log 7). -/

namespace Sys2Proof.Machine

open Sys2Proof.Safety

/-- The order of acceptance is one on the handles alone, given the handle counter. -/
def HandlesOrdered (next : Handle) (hs : List Handle) : Prop :=
  hs.Pairwise (fun a b => (next - b).toNat < (next - a).toNat) ∧ ∀ h ∈ hs, 1 ≤ (next - h).toNat

theorem acceptanceOrdered_iff (s : State) :
    AcceptanceOrdered s ↔ HandlesOrdered s.nextHandle (s.queue.map (·.handle)) := by
  simp [AcceptanceOrdered, HandlesOrdered, age, List.pairwise_map]

theorem HandlesOrdered.sublist {next : Handle} {hs hs' : List Handle} (h : HandlesOrdered next hs) (hsub : hs'.Sublist hs) :
    HandlesOrdered next hs' :=
  ⟨h.1.sublist hsub, fun x hx => h.2 x (hsub.subset hx)⟩

theorem HandlesOrdered.nodup {next : Handle} {hs : List Handle} (h : HandlesOrdered next hs) : hs.Nodup :=
  h.1.imp fun hlt heq => by rw [heq] at hlt; exact absurd hlt (lt_irrefl _)

/-- One accepted AWAIT makes every handle one older, as long as its age does not wrap. -/
theorem toNat_succ_sub {next h : Handle} (hage : (next - h).toNat < 65535) :
    (next + 1#16 - h).toNat = (next - h).toNat + 1 := by
  bv_omega

/-- The counter's value joins at the tail with age 1, behind handles of age at least 2. -/
theorem HandlesOrdered.register {next : Handle} {hs : List Handle} (h : HandlesOrdered next hs)
    (hage : ∀ x ∈ hs, (next - x).toNat < 65535) : HandlesOrdered (next + 1#16) (hs ++ [next]) := by
  obtain ⟨hpair, hpos⟩ := h
  have hnew : (next + 1#16 - next).toNat = 1 := by bv_omega
  refine ⟨List.pairwise_append.2 ⟨?old, List.pairwise_singleton _ _, ?new⟩, ?positive⟩
  case old =>
    refine hpair.imp_of_mem fun {a b} ha hb hlt => ?_
    rw [toNat_succ_sub (hage a ha), toNat_succ_sub (hage b hb)]
    exact Nat.succ_lt_succ hlt
  case new =>
    intro a ha b hb
    rw [List.mem_singleton.1 hb, hnew, toNat_succ_sub (hage a ha)]
    exact Nat.lt_succ_of_le (hpos a ha)
  case positive =>
    intro x hx
    obtain hold | hlast := List.mem_append.1 hx
    · rw [toNat_succ_sub (hage x hold)]
      exact Nat.le_add_left 1 _
    · rw [List.mem_singleton.1 hlast, hnew]

/-- The handles are part of the identities. -/
theorem handles_sublist_of_identities {q q' : List Expectation} (h : (q'.map identity).Sublist (q.map identity)) :
    (q'.map (·.handle)).Sublist (q.map (·.handle)) := by
  simpa [Function.comp_def, identity] using h.map Prod.fst

theorem acceptanceOrdered_of_effect {i : Instr} {s t : State} (he : Effect i s t) (h : AcceptanceOrdered s)
    (hage : ∀ e ∈ s.queue, age s e < 65535) : AcceptanceOrdered t := by
  rw [acceptanceOrdered_iff] at h ⊢
  cases he with
  | quiet hq hn hd hg hp hin => rwa [hq, hn]
  | accepted id c ms hi hl ht =>
    subst ht
    rw [register_queue, register_nextHandle, List.map_append]
    exact h.register (by simpa [age] using hage)
  | ended gone hn hd hg hp hin hs hperm hrej =>
    rw [hn]
    exact h.sublist (handles_sublist_of_identities hs)
  | reset hi ht =>
    subst ht
    exact ⟨List.Pairwise.nil, fun _ hx => nomatch hx⟩

/-- Settles O56. -/
theorem acceptanceOrderIsKeptUntilTheCounterWraps : Obligations.AcceptanceOrderIsKeptUntilTheCounterWraps := by
  unfold Obligations.AcceptanceOrderIsKeptUntilTheCounterWraps
  exact ⟨fun _ _ _ h hage hx => acceptanceOrdered_of_effect (exec_effect hx) h hage,
    fun s h => ((acceptanceOrdered_iff s).1 h).nodup⟩

end Sys2Proof.Machine
end

section
/-! PROOFS. Encodings of records, and which transactions a step takes (R50, R66, R68, R73, R91, R189). -/

namespace Sys2Proof.Machine

open Sys2Proof.Safety

/-! ### The parameter bytes determine the record (R91) -/

theorem enc_sync_injective {r dl r' dl' : Byte} {es es' : List SyncEntry} (hw : wf (.sync r dl es) = true)
    (hw' : wf (.sync r' dl' es') = true) (h : enc (.sync r dl es) = enc (.sync r' dl' es')) :
    ParamRecord.sync r dl es = .sync r' dl' es' := by
  have hread := congrArg (decodeSync 0#8) h
  rw [decodeSync_enc _ _ _ _ (wf_sync_iff.1 hw), decodeSync_enc _ _ _ _ (wf_sync_iff.1 hw')] at hread
  cases hread
  rfl

theorem enc_bulk_injective {es es' : List BulkEntry} (h : enc (.bulk es) = enc (.bulk es')) : es = es' := by
  have hread : decodeBulk (es.flatMap encBulkEntry) = decodeBulk (es'.flatMap encBulkEntry) := congrArg decodeBulk h
  rw [decodeBulk_flatMap, decodeBulk_flatMap] at hread
  exact Option.some.inj hread

/-- Settles O4: what the frame decoder reads back of a record's bytes is that record. -/
theorem encodingIsInjectivePerVariant : Obligations.EncodingIsInjectivePerVariant := by
  unfold Obligations.EncodingIsInjectivePerVariant
  intro p q hv hp hq h
  cases p with
  | none => cases q with
    | none => rfl
    | _ => cases hv
  | read r l => cases q with
    | read r' l' => cases h; rfl
    | _ => cases hv
  | write r d => cases q with
    | write r' d' => cases h; rfl
    | _ => cases hv
  | sync r dl es => cases q with
    | sync r' dl' es' => exact enc_sync_injective hp hq h
    | _ => cases hv
  | bulk es => cases q with
    | bulk es' => rw [enc_bulk_injective h]
    | _ => cases hv

/-! ### One step -/

theorem step_of_decode {s : State} {t : List Byte} {rest : List (List Byte)} {i : Instr} (hin : s.input = t :: rest)
    (hd : decode t = .instr i) : step s = exec i { s with input := rest } := by
  simp only [step, hin, hd]

theorem step_of_reject {s : State} {t : List Byte} {rest : List (List Byte)} {e : DecodeError}
    (hin : s.input = t :: rest) (hd : decode t = .reject e) : step s = rejected e := by
  simp only [step, hin, hd]

/-- Settles O5. -/
theorem stepRunsTheDecodedInstruction : Obligations.StepRunsTheDecodedInstruction := by
  unfold Obligations.StepRunsTheDecodedInstruction
  exact fun _ _ _ _ hin hd _ => step_of_decode hin hd

/-- Settles O6. -/
theorem idleStepChangesNothing : Obligations.IdleStepChangesNothing := by
  unfold Obligations.IdleStepChangesNothing
  intro s hin
  simp only [step, hin]

/-- R73: the four OPSEL values without an operation, whatever bytes follow. -/
theorem decode_unassigned {b : Byte} (t : List Byte) (hb : b = 0x00#8 ∨ b = 0x0C#8 ∨ b = 0x0D#8 ∨ b = 0x0E#8) :
    decode (b :: t) = .reject .unknownOperation := by
  rcases hb with rfl | rfl | rfl | rfl <;> rfl

/-- R68: a frame image whose command byte is none of the eight. -/
theorem decode_illegal_command (id l : Byte) {cmd : Byte} (t : List Byte) (hc : ∀ c : Command, cmd ≠ opcode c) :
    decode (0xFF#8 :: 0xFF#8 :: id :: l :: cmd :: t) = .reject .unknownCommand := by
  simp only [decode_frame, decodeFrame, commandOf_eq_none hc, if_true]

/-- Settles O7. -/
theorem unassignedCodesAreRefused : Obligations.UnassignedCodesAreRefused := by
  unfold Obligations.UnassignedCodesAreRefused
  refine ⟨fun s b t rest hin hb => ?opsel, fun s id l cmd t rest hin hc => ?frame⟩
  case opsel => exact step_of_reject hin (decode_unassigned t hb)
  case frame => exact step_of_reject hin (decode_illegal_command id l t hc)

/-- Settles O1. -/
theorem tableWordsDecodeToTheirRows : Obligations.TableWordsDecodeToTheirRows := by
  unfold Obligations.TableWordsDecodeToTheirRows
  decide

/-! ### A presented script -/

/-- An instruction that runs with nothing presented behind it runs with anything presented, and leaves that as it is. -/
theorem exec_input_of_next {i : Instr} {s u : State} (h : exec i { s with input := [] } = .next u)
    (r : List (List Byte)) : exec i { s with input := r } = .next { u with input := r } ∧ u.input = [] := by
  rw [exec_input] at h ⊢
  cases hx : exec i s with
  | next v => rw [hx] at h; cases h; exact ⟨rfl, rfl⟩
  | fault e => rw [hx] at h; cases h
  | refused e => rw [hx] at h; cases h

/-- The first of several steps. -/
theorem run_succ {s u : State} (n : Nat) (h : step s = .next u) : core.run (n + 1) s = core.run n u := by
  have hcore : core.step s = .next u := h
  simp only [Host.Core.run, hcore]

/-- Running as many steps as there are encodings presented is the fold of the meanings (R50). -/
theorem run_map_encode {is : List Instr} {s t : State} (hw : ∀ i ∈ is, i.wellFormed = true)
    (h : execAll is { s with input := [] } = .next t) :
    core.run is.length { s with input := is.map encode } = .next t := by
  induction is generalizing s with
  | nil => exact h
  | cons i is ih =>
    obtain ⟨hi, his⟩ := List.forall_mem_cons.1 hw
    cases hx : exec i { s with input := [] } with
    | fault e => rw [execAll, hx] at h; cases h
    | refused e => rw [execAll, hx] at h; cases h
    | next u =>
      obtain ⟨hrun, hu⟩ := exec_input_of_next hx (is.map encode)
      have hrest : execAll is { u with input := [] } = .next t := by
        rw [← hu, ← execAll_cons_next is hx]
        exact h
      have hstep : step { s with input := (i :: is).map encode } = .next { u with input := is.map encode } :=
        (step_of_decode (s := { s with input := (i :: is).map encode }) rfl (decode_encode_of_wellFormed hi)).trans hrun
      exact (run_succ is.length hstep).trans (ih his hrest)

/-- Settles O8. -/
theorem presentedScriptRunsInOrder : Obligations.PresentedScriptRunsInOrder := by
  unfold Obligations.PresentedScriptRunsInOrder
  exact fun _ _ _ hw h => run_map_encode hw h

end Sys2Proof.Machine
end

section
/-! PROOFS. An instruction answers a next state exactly when it is well-formed (R172). -/

namespace Sys2Proof.Machine

open Sys2Proof.Safety

/-- BUILD answers exactly the calls inside the contract (R88 to R90, R103). -/
theorem buildFrame_answers_iff (id : Int) (b : Byte) (p : ParamRecord) (s : State) :
    (∃ t, buildFrame id b p s = .next t) ↔ callWellFormed b p = true ∧ p.paramLength ≤ 252 := by
  rw [callWellFormed_iff]
  constructor
  · rintro ⟨t, h⟩
    obtain ⟨⟨c, hc⟩, hp, -⟩ := buildFrame_next h
    exact ⟨⟨c, hc⟩, length_enc (checkCall_ok_iff.1 hc).2.2 ▸ hp⟩
  · rintro ⟨⟨c, hc⟩, hp⟩
    have hlen : (enc p).length ≤ 252 := (length_enc (checkCall_ok_iff.1 hc).2.2).symm ▸ hp
    rw [buildFrame_of_checkCall s hc hlen]
    split
    · exact ⟨_, rfl⟩
    · exact ⟨_, rfl⟩

theorem callWellFormed_opcode {c : Command} {p : ParamRecord} (hv : variant p = variantOf c) :
    callWellFormed (opcode c) p = wf p := by
  simp [callWellFormed, requiredVariant_eq, hv]

/-- A command image answers exactly when its record is one BUILD accepts (R90, R103). -/
theorem buildCommand_answers_iff (id : Byte) {c : Command} {p : ParamRecord} (s : State) (hv : variant p = variantOf c) :
    recordBuildable p = true ↔ ∃ t, buildCommand id c p s = .next t := by
  rw [buildCommand, buildFrame_answers_iff, callWellFormed_opcode hv, recordBuildable, Bool.and_eq_true,
    decide_eq_true_eq]

theorem execEncode_answers_iff (b : Byte) (p : ParamRecord) (s : State) :
    callWellFormed b p = true ↔ ∃ t, exec (.encode b p) s = .next t := by
  rw [callWellFormed_iff]
  constructor
  · rintro ⟨c, hc⟩
    exact ⟨_, exec_encode_of_checkCall_ok s hc⟩
  · rintro ⟨t, h⟩
    exact (execEncode_next h).1

theorem execValidate_answers (f : List Byte) (id cmd : Byte) (s : State) : ∃ t, exec (.validate f id cmd) s = .next t := by
  obtain ⟨pay, hv⟩ | ⟨k, hv⟩ := validate_cases s.params.verifyChecksum f id cmd
  · exact ⟨_, exec_validate_of_ok hv⟩
  · exact ⟨_, exec_validate_of_err hv⟩

/-! ### AWAIT of one of the eight commands (R143, R144) -/

theorem exec_await_of_full (id : Byte) (c : Command) (ms : Millis) {s : State} (h : s.params.nExpect ≤ s.queue.length) :
    exec (.await id (opcode c) ms) s = .next (report s .busy) := by
  simp only [exec, execAwait, commandOf_opcode, if_pos h]

theorem exec_await_of_free (id : Byte) (c : Command) (ms : Millis) {s : State} (h : s.queue.length < s.params.nExpect) :
    exec (.await id (opcode c) ms) s = .next (register s id (opcode c) ms) := by
  simp only [exec, execAwait, commandOf_opcode, if_neg (Nat.not_le.2 h)]

theorem execAwait_answers_iff (id b : Byte) (ms : Millis) (s : State) :
    (requiredVariant b).isSome = true ↔ ∃ t, exec (.await id b ms) s = .next t := by
  rw [requiredVariant_eq, Option.isSome_map, Option.isSome_iff_exists]
  constructor
  · rintro ⟨c, hc⟩
    obtain rfl := opcode_of_commandOf hc
    obtain hfull | hfree := le_or_gt s.params.nExpect s.queue.length
    · exact ⟨_, exec_await_of_full id c ms hfull⟩
    · exact ⟨_, exec_await_of_free id c ms hfree⟩
  · rintro ⟨t, h⟩
    obtain ⟨c, rfl, -⟩ := execAwait_next h
    exact ⟨c, commandOf_opcode c⟩

/-! ### CANCEL and the events always answer -/

theorem execCancel_answers (h : Handle) (s : State) : ∃ t, exec (.cancel h) s = .next t := by
  obtain ⟨-, hx⟩ | ⟨pre, e, post, n, -, -, -, hx⟩ := execCancel_cases h s
  · exact ⟨_, hx⟩
  · exact ⟨_, hx⟩

theorem execChunk_answers (f : List Byte) (s : State) : ∃ t, exec (.chunk f) s = .next t := by
  obtain ⟨-, hx⟩ | ⟨e, q, -, ⟨pay, -, hx⟩ | ⟨k, -, hx⟩⟩ := execChunk_cases f s
  · exact ⟨_, hx⟩
  · exact ⟨_, hx⟩
  · exact ⟨_, hx⟩

/-- Settles O9: per instruction, its refusals are the negation of its clause of `wellFormed`. -/
theorem wellFormedIsExactlyExecutable : Obligations.WellFormedIsExactlyExecutable := by
  unfold Obligations.WellFormedIsExactlyExecutable
  intro i s
  cases i with
  | ping id => exact buildCommand_answers_iff id (c := .ping) (p := .none) s rfl
  | readData id r l => exact buildCommand_answers_iff id (c := .readData) (p := .read r l) s rfl
  | writeData id r d => exact buildCommand_answers_iff id (c := .writeData) (p := .write r d) s rfl
  | regWrite id r d => exact buildCommand_answers_iff id (c := .regWrite) (p := .write r d) s rfl
  | action id => exact buildCommand_answers_iff id (c := .action) (p := .none) s rfl
  | reset id => exact buildCommand_answers_iff id (c := .reset) (p := .none) s rfl
  | syncWrite id r dl es => exact buildCommand_answers_iff id (c := .syncWrite) (p := .sync r dl es) s rfl
  | bulkRead id es => exact buildCommand_answers_iff id (c := .bulkRead) (p := .bulk es) s rfl
  | encode b p => exact execEncode_answers_iff b p s
  | build id b p =>
    rw [exec_build, buildFrame_answers_iff, Instr.wellFormed, Bool.and_eq_true, decide_eq_true_eq]
  | checksum id l c pb => exact iff_of_true rfl ⟨_, rfl⟩
  | chkverify f => exact iff_of_true rfl ⟨_, rfl⟩
  | parse f => exact iff_of_true rfl ⟨_, rfl⟩
  | validate f id cmd => exact iff_of_true rfl (execValidate_answers f id cmd s)
  | await id b ms => exact execAwait_answers_iff id b ms s
  | cancel h => exact iff_of_true rfl (execCancel_answers h s)
  | chunk f => exact iff_of_true rfl (execChunk_answers f s)
  | tick => exact iff_of_true rfl ⟨_, rfl⟩
  | terr => exact iff_of_true rfl ⟨_, rfl⟩
  | hwreset => exact iff_of_true rfl ⟨_, rfl⟩

end Sys2Proof.Machine
end

section
/-! PROOFS. The eight commands as frame images (R80 to R87, R42; log 4), and the parameter bytes of ENCODE. -/

namespace Sys2Proof.Machine

open Sys2Proof.Safety

/-! ### BUILD for the id of a device -/

/-- The ids a frame can carry, as bytes (R42, R101). -/
theorem id_inRange_iff (id : Byte) : (0 ≤ Int.ofNat id.toNat ∧ Int.ofNat id.toNat ≤ 253) ↔ id.toNat ≤ 253 := by
  simp only [Int.ofNat_eq_natCast]
  omega

theorem ofInt_toNat (id : Byte) : BitVec.ofInt 8 (Int.ofNat id.toNat) = id := by
  simp

/-- R60 to R63: the request of an admitted command to a device is its frame. -/
theorem exec_request_frame {id : Byte} {c : Command} {p : ParamRecord} (s : State) (hid : id.toNat ≤ 253)
    (hv : variant p = variantOf c) (hw : wf p = true) (hp : p.paramLength ≤ 252) :
    exec (.build (Int.ofNat id.toNat) (opcode c) p) s = .next { s with
      result := .frame (frameOf id (BitVec.ofNat 8 (p.paramLength + 3)) (opcode c) (enc p)) } := by
  rw [exec_build_of_admitted _ s hv hw hp, if_pos ((id_inRange_iff id).2 hid), assemble_enc_eq_frameOf _ _ hw,
    ofInt_toNat]
  rfl

/-- R42, R101: the request of an admitted command to one of the two reserved ids is InvalidId. -/
theorem exec_request_invalidId {id : Byte} {c : Command} {p : ParamRecord} (s : State) (hid : id = 254#8 ∨ id = 255#8)
    (hv : variant p = variantOf c) (hw : wf p = true) (hp : p.paramLength ≤ 252) :
    exec (.build (Int.ofNat id.toNat) (opcode c) p) s = .next { s with result := .error .invalidId } := by
  have hout : ¬ id.toNat ≤ 253 := by rcases hid with rfl | rfl <;> decide
  rw [exec_build_of_admitted _ s hv hw hp, if_neg (mt (id_inRange_iff id).1 hout)]
  rfl

/-! ### The records of R90 -/

theorem wf_read_iff {r len : Byte} : wf (.read r len) = true ↔ len = 1#8 ∨ len = 2#8 := by
  simp [wf]

theorem wf_write_iff {r : Byte} {data : List Byte} : wf (.write r data) = true ↔ data.length = 1 ∨ data.length = 2 := by
  simp [wf]

theorem paramLength_write_le {r : Byte} {data : List Byte} (h : data.length = 1 ∨ data.length = 2) :
    (ParamRecord.write r data).paramLength ≤ 252 := by
  simp only [ParamRecord.paramLength]
  omega

theorem paramLength_sync_le_iff {r dl : Byte} {es : List SyncEntry} :
    (ParamRecord.sync r dl es).paramLength ≤ 252 ↔ es.length * (1 + dl.toNat) ≤ 250 := by
  simp only [ParamRecord.paramLength]
  omega

theorem paramLength_bulk_le_iff {es : List BulkEntry} : (ParamRecord.bulk es).paramLength ≤ 252 ↔ es.length ≤ 84 := by
  simp only [ParamRecord.paramLength]
  omega

theorem enc_sync_eq (r dl : Byte) (es : List SyncEntry) :
    enc (.sync r dl es) = [r, dl] ++ (es.map fun e => [e.id] ++ e.data).flatten := rfl

theorem enc_bulk_eq (es : List BulkEntry) :
    enc (.bulk es) = (es.map fun e => [e.id, e.register, e.length]).flatten := rfl

/-! ### Frames -/

/-- Settles O10. -/
theorem parameterlessCommandsBuildSixBytes : Obligations.ParameterlessCommandsBuildSixBytes := by
  unfold Obligations.ParameterlessCommandsBuildSixBytes
  intro id s hid
  exact ⟨exec_request_frame (c := .ping) (p := .none) s hid rfl rfl (by decide),
    exec_request_frame (c := .action) (p := .none) s hid rfl rfl (by decide),
    exec_request_frame (c := .reset) (p := .none) s hid rfl rfl (by decide)⟩

/-- Settles O11. -/
theorem readAndWriteCommandsBuildTheirFrames : Obligations.ReadAndWriteCommandsBuildTheirFrames := by
  unfold Obligations.ReadAndWriteCommandsBuildTheirFrames
  intro id r s hid
  have hread (len : Byte) (h : len = 1#8 ∨ len = 2#8) :=
    exec_request_frame (c := .readData) (p := .read r len) s hid rfl (wf_read_iff.2 h) (by decide : 2 ≤ 252)
  have hwrite (c : Command) (hc : Variant.write = variantOf c) (data : List Byte) (h : data.length = 1 ∨ data.length = 2) :=
    exec_request_frame (c := c) (p := .write r data) s hid hc (wf_write_iff.2 h) (paramLength_write_le h)
  exact ⟨hread,
    fun a => ⟨hwrite .writeData rfl [a] (.inl rfl), hwrite .regWrite rfl [a] (.inl rfl)⟩,
    fun a b => ⟨hwrite .writeData rfl [a, b] (.inr rfl), hwrite .regWrite rfl [a, b] (.inr rfl)⟩⟩

/-- Settles O12. -/
theorem syncAndBulkCommandsBuildTheirFrames : Obligations.SyncAndBulkCommandsBuildTheirFrames := by
  unfold Obligations.SyncAndBulkCommandsBuildTheirFrames
  intro id s hid
  refine ⟨fun r dl es he hlen => ?sync, fun es hlen => ?bulk⟩
  case sync =>
    have hbytes : (ParamRecord.sync r dl es).paramLength + 3 = 5 + es.length * (1 + dl.toNat) := by
      simp only [ParamRecord.paramLength]; omega
    rw [← enc_sync_eq, ← hbytes]
    exact exec_request_frame (c := .syncWrite) s hid rfl (wf_sync_iff.2 he) (paramLength_sync_le_iff.2 hlen)
  case bulk =>
    have hbytes : (ParamRecord.bulk es).paramLength + 3 = 3 + 3 * es.length := Nat.add_comm _ _
    rw [← enc_bulk_eq, ← hbytes]
    exact exec_request_frame (c := .bulkRead) s hid rfl rfl (paramLength_bulk_le_iff.2 hlen)

/-- Settles O13. -/
theorem commandsToReservedIdsReportInvalidId : Obligations.CommandsToReservedIdsReportInvalidId := by
  unfold Obligations.CommandsToReservedIdsReportInvalidId
  intro id r s hid
  refine ⟨?parameterless, fun len h => ?read, fun data h => ⟨?write, ?regWrite⟩, fun dl es he hlen => ?sync,
    fun es hlen => ?bulk⟩
  case parameterless =>
    simp only [List.forall_mem_cons]
    exact ⟨exec_request_invalidId (c := .ping) (p := .none) s hid rfl rfl (by decide),
      exec_request_invalidId (c := .action) (p := .none) s hid rfl rfl (by decide),
      exec_request_invalidId (c := .reset) (p := .none) s hid rfl rfl (by decide), List.forall_mem_nil _⟩
  case read =>
    exact exec_request_invalidId (c := .readData) (p := .read r len) s hid rfl (wf_read_iff.2 h) (by decide : 2 ≤ 252)
  case write =>
    exact exec_request_invalidId (c := .writeData) s hid rfl (wf_write_iff.2 h) (paramLength_write_le (r := r) h)
  case regWrite =>
    exact exec_request_invalidId (c := .regWrite) s hid rfl (wf_write_iff.2 h) (paramLength_write_le (r := r) h)
  case sync =>
    exact exec_request_invalidId (c := .syncWrite) (p := .sync r dl es) s hid rfl (wf_sync_iff.2 he)
      (paramLength_sync_le_iff.2 hlen)
  case bulk => exact exec_request_invalidId (c := .bulkRead) s hid rfl rfl (paramLength_bulk_le_iff.2 hlen)

/-! ### Refusals -/

/-- R90 (decision D9): an ill-formed record of the command's own variant is refused by BUILD, whatever the id. -/
theorem exec_build_of_illFormed (id : Int) {c : Command} {p : ParamRecord} (s : State) (hv : variant p = variantOf c)
    (hw : ¬ wf p = true) : exec (.build id (opcode c) p) s = .refused .illFormedParams :=
  exec_build_of_checkCall_error id s (checkCall_illFormedParams hv (Bool.not_eq_true _ ▸ hw))

/-- Settles O14. -/
theorem commandsOutsideTheDataModelAreRefused : Obligations.CommandsOutsideTheDataModelAreRefused := by
  unfold Obligations.CommandsOutsideTheDataModelAreRefused
  intro id r s
  refine ⟨fun len h1 h2 => ?read, fun data h1 h2 => ?write, fun dl es he => ?syncIllFormed,
    fun dl es he hlen => ?syncTooLong, fun es hlen => ?bulkTooLong⟩
  case read =>
    exact exec_build_of_illFormed _ (c := .readData) s rfl (mt wf_read_iff.1 (not_or.2 ⟨h1, h2⟩))
  case write =>
    have hw : ¬ wf (.write r data) = true := mt wf_write_iff.1 (not_or.2 ⟨h1, h2⟩)
    exact ⟨exec_build_of_illFormed _ (c := .writeData) s rfl hw, exec_build_of_illFormed _ (c := .regWrite) s rfl hw⟩
  case syncIllFormed =>
    obtain ⟨e, hmem, hne⟩ := he
    exact exec_build_of_illFormed _ (c := .syncWrite) s rfl (mt wf_sync_iff.1 fun hall => hne (hall e hmem))
  case syncTooLong =>
    have hlong : 252 < (ParamRecord.sync r dl es).paramLength :=
      Nat.lt_of_not_le (mt paramLength_sync_le_iff.1 (Nat.not_le.2 hlen))
    exact exec_build_of_tooLong _ (c := .syncWrite) s rfl (wf_sync_iff.2 he) hlong
  case bulkTooLong =>
    have hlong : 252 < (ParamRecord.bulk es).paramLength :=
      Nat.lt_of_not_le (mt paramLength_bulk_le_iff.1 (Nat.not_le.2 hlen))
    exact exec_build_of_tooLong _ (c := .bulkRead) s rfl rfl hlong

/-! ### ENCODE -/

theorem exec_encode_of_admitted {c : Command} {p : ParamRecord} (s : State) (hv : variant p = variantOf c)
    (hw : wf p = true) : exec (.encode (opcode c) p) s = .next { s with result := .paramBytes (enc p) } :=
  exec_encode_of_checkCall_ok s (checkCall_opcode c p hv hw)

/-- Settles O16. -/
theorem encodeGivesTheBytesOfEachCommand : Obligations.EncodeGivesTheBytesOfEachCommand := by
  unfold Obligations.EncodeGivesTheBytesOfEachCommand
  intro s
  refine ⟨?parameterless, fun r len h => ?read, ?write, fun r dl es he => ?sync, fun es => ?bulk⟩
  case parameterless =>
    simp only [List.forall_mem_cons]
    exact ⟨exec_encode_of_admitted (c := .ping) (p := .none) s rfl rfl,
      exec_encode_of_admitted (c := .action) (p := .none) s rfl rfl,
      exec_encode_of_admitted (c := .reset) (p := .none) s rfl rfl, List.forall_mem_nil _⟩
  case read => exact exec_encode_of_admitted (c := .readData) s rfl (wf_read_iff.2 h)
  case write =>
    simp only [List.forall_mem_cons]
    exact ⟨fun r data h => exec_encode_of_admitted (c := .writeData) (p := .write r data) s rfl (wf_write_iff.2 h),
      fun r data h => exec_encode_of_admitted (c := .regWrite) (p := .write r data) s rfl (wf_write_iff.2 h),
      List.forall_mem_nil _⟩
  case sync => exact exec_encode_of_admitted (c := .syncWrite) s rfl (wf_sync_iff.2 he)
  case bulk => exact exec_encode_of_admitted (c := .bulkRead) (p := .bulk es) s rfl rfl

/-! ### move-to-position -/

/-- R45: the two bytes of a position, low byte first, hold its value. -/
theorem positionBytes_value (pos : BitVec 16) :
    (BitVec.ofNat 8 (pos.toNat % 256)).toNat + 256 * (BitVec.ofNat 8 (pos.toNat / 256)).toNat = pos.toNat := by
  have := pos.isLt
  simp only [BitVec.toNat_ofNat]
  omega

/-- Settles O59. -/
theorem positionsTravelLowByteFirst : Obligations.PositionsTravelLowByteFirst := by
  unfold Obligations.PositionsTravelLowByteFirst
  intro r id pos s hid
  have hvalue := positionBytes_value pos
  refine ⟨_, _, hvalue, congrArg some hvalue, ?frame⟩
  case frame =>
    have hbuild := exec_request_frame (c := .writeData) (p := .write r.goalPosition (Pseudo.positionBytes pos)) s hid rfl
      rfl (by decide : 3 ≤ 252)
    exact execAll_cons_next [] hbuild

end Sys2Proof.Machine
end

section
/-! PROOFS. What a frame that BUILD answers guarantees (R66, R102, R120, R205). -/

namespace Sys2Proof.Machine

open Sys2Proof.Safety

/-- A frame answered by the BUILD of a command is the assembly of that command's record (R100, R103). -/
theorem exec_build_frame {id : Int} {c : Command} {p : ParamRecord} {s t : State} {f : List Byte}
    (h : exec (.build id (opcode c) p) s = .next t) (hf : t.result = .frame f) :
    f = assemble (BitVec.ofInt 8 id) (opcode c) (enc p) ∧ (enc p).length ≤ 252 := by
  obtain ⟨-, hp, -, -, hasm⟩ := buildFrame_frame h hf
  exact ⟨hasm, hp⟩

/-- The table's value and an opcode have no bit in common, so that the word of R66 is their sum. -/
theorem header_or_opcode (c : Command) :
    0xFFFF000000#40 ||| (opcode c).setWidth 40 = 0xFFFF000000#40 + (opcode c).setWidth 40 := by
  cases c <;> rfl

/-- Settles O3. -/
theorem builtFramesMatchTheirTableRow : Obligations.BuiltFramesMatchTheirTableRow := by
  unfold Obligations.BuiltFramesMatchTheirTableRow
  intro id c p s t f h hf
  rw [(exec_build_frame h hf).1, ← header_or_opcode]
  exact Laws.TableRow.prefixWord_encodeFrame (BitVec.ofInt 8 id) c p

theorem chkverify_assemble (id cmd : Byte) (pb : List Byte) : chkverify (assemble id cmd pb) = true := by
  rw [assemble_eq, chkverify_fields, decide_eq_true_eq]

theorem slice_assemble (id cmd : Byte) (pb : List Byte) :
    slice (assemble id cmd pb) 5 ((assemble id cmd pb).length - 1) = pb := by
  rw [assemble_eq, slice_payload]

/-- R102 (2): the five bytes before the parameters of an assembled frame. -/
theorem getElem?_assemble (id cmd : Byte) {pb : List Byte} (h : pb.length ≤ 252) :
    (assemble id cmd pb)[0]? = some 0xFF#8 ∧ (assemble id cmd pb)[1]? = some 0xFF#8 ∧
      (assemble id cmd pb)[2]? = some id ∧
      (∃ l : Byte, (assemble id cmd pb)[3]? = some l ∧ l.toNat + 3 = (assemble id cmd pb).length) ∧
      (assemble id cmd pb)[4]? = some cmd := by
  refine ⟨rfl, rfl, rfl, ⟨lengthByte pb, rfl, ?length⟩, rfl⟩
  case length => rw [lengthByte_toNat h, length_assemble]

/-- Settles O20: the guarantees hold of every assembly of at most 252 parameter bytes. -/
theorem builtFramesMeetTheirGuarantees : Obligations.BuiltFramesMeetTheirGuarantees := by
  unfold Obligations.BuiltFramesMeetTheirGuarantees
  intro id c p s t f h hf
  obtain ⟨rfl, hp⟩ := exec_build_frame h hf
  have hver := chkverify_assemble (BitVec.ofInt 8 id) (opcode c) (enc p)
  refine ⟨length_assemble .., getElem?_assemble _ _ hp, slice_assemble .., hver, fun v => validate_assemble v _ _ hp,
    ?bounds, ((chkverify_iff _).1 hver).2⟩
  case bounds =>
    rw [length_assemble]
    exact ⟨Nat.le_add_left 6 _, Nat.add_le_add_right hp 6⟩

/-- Settles O21. -/
theorem parseInvertsBuild : Obligations.ParseInvertsBuild := by
  unfold Obligations.ParseInvertsBuild
  intro id c p s t u f h hf
  obtain ⟨rfl, hp⟩ := exec_build_frame h hf
  refine ⟨lengthByte (enc p), checksum (BitVec.ofInt 8 id) (lengthByte (enc p)) (opcode c) (enc p), ?length, ?last, ?parsed⟩
  case length => rw [lengthByte_toNat hp, length_assemble]
  case last =>
    rw [← List.getLast?_eq_getElem?, assemble]
    exact List.getLast?_concat
  case parsed =>
    simp only [exec, execParse, assemble_eq, parse_fields]
    rfl

/-- Settles O28. -/
theorem parseCutsByPosition : Obligations.ParseCutsByPosition := by
  unfold Obligations.ParseCutsByPosition
  refine ⟨fun h0 h1 id l cmd k pb s => ?fields, fun f s hshort => ?short⟩
  case fields =>
    simp only [exec, execParse, parse_fields]
    rfl
  case short =>
    have hnone : parse f = none := if_pos hshort
    simp only [exec, execParse, hnone]
    rfl

/-- Settles O55: with nothing pending and a legal N_EXPECT there is a free place, and the frame validates for the
expectation that takes it (`validate_assemble`). -/
theorem builtRequestResolvesItsOwnExpectation : Obligations.BuiltRequestResolvesItsOwnExpectation := by
  unfold Obligations.BuiltRequestResolvesItsOwnExpectation
  intro id c p ms s t f h hf hq hlegal
  obtain ⟨rfl, hp⟩ := exec_build_frame h hf
  rw [ofInt_toNat]
  have hcap : 1 ≤ s.params.nExpect := by simpa using (Bool.and_eq_true_iff.1 hlegal).1
  have hfree : s.queue.length < s.params.nExpect := by rw [hq]; exact hcap
  have hpending : (register s id (opcode c) ms).queue = ⟨s.nextHandle, id, opcode c, ms⟩ :: [] := by
    rw [register_queue, hq]
    rfl
  have hchunk := exec_chunk_of_validate_ok hpending (validate_assemble _ id (opcode c) hp)
  exact ⟨_, (execAll_cons_next _ (exec_await_of_free id c ms hfree)).trans (execAll_cons_next [] hchunk), rfl, rfl⟩

end Sys2Proof.Machine
end

section
/-! PROOFS. The laws of the checksum (R111, R113, R114). -/

namespace Sys2Proof.Machine

open Sys2Proof.Safety

/-- Two checksums agree exactly when the sums of the two lists of summed bytes do, modulo 256. -/
theorem checksum_eq_iff_sumBytes {id l cmd id' l' cmd' : Byte} {pb pb' : List Byte} :
    checksum id l cmd pb = checksum id' l' cmd' pb' ↔
      sumBytes (id :: l :: cmd :: pb) % 256 = sumBytes (id' :: l' :: cmd' :: pb') % 256 := by
  simp only [checksum_eq_iff, sumBytes_cons, Nat.add_assoc]

/-- Settles O24. -/
theorem checksumDependsOnTheMultisetOnly : Obligations.ChecksumDependsOnTheMultisetOnly := by
  unfold Obligations.ChecksumDependsOnTheMultisetOnly
  intro id l cmd id' l' cmd' pb pb' hperm
  rw [checksum_eq_iff_sumBytes, sumBytes_perm hperm]

/-- Two different bytes differ modulo 256, so exchanging one for the other changes the sum modulo 256. -/
theorem sumBytes_exchange_ne {a b : Byte} (pre post : List Byte) (hab : a ≠ b) :
    sumBytes (pre ++ a :: post) % 256 ≠ sumBytes (pre ++ b :: post) % 256 := by
  have hne : a.toNat ≠ b.toNat := mt BitVec.eq_of_toNat_eq hab
  have ha := a.isLt
  have hb := b.isLt
  simp only [sumBytes_append, sumBytes_cons]
  omega

/-- Adding `d` to one byte and taking it from another keeps the sum modulo 256. -/
theorem sumBytes_shift (a b d : Byte) (pre mid post : List Byte) :
    sumBytes (pre ++ a :: (mid ++ b :: post)) % 256 = sumBytes (pre ++ (a + d) :: (mid ++ (b - d) :: post)) % 256 := by
  have hd := d.isLt
  simp only [sumBytes_append, sumBytes_cons, BitVec.toNat_add, BitVec.toNat_sub]
  omega

/-- Settles O25. -/
theorem checksumDetectsOneChangedByte : Obligations.ChecksumDetectsOneChangedByte := by
  unfold Obligations.ChecksumDetectsOneChangedByte
  intro id l cmd id' l' cmd' pb pb'
  refine ⟨fun a b pre post hab h h' => ?one, fun a b d pre mid post h h' => ?two⟩
  case one =>
    rw [Ne, checksum_eq_iff_sumBytes, h, h']
    exact sumBytes_exchange_ne pre post hab
  case two =>
    rw [checksum_eq_iff_sumBytes, h, h']
    exact sumBytes_shift a b d pre mid post

/-- A wrapping accumulator holds the sum modulo `2^w`, from any start. -/
theorem foldl_add_toNat (w : Nat) (l : List Byte) (acc : BitVec w) :
    (l.foldl (fun (a : BitVec w) b => a + BitVec.ofNat w b.toNat) acc).toNat = (acc.toNat + sumBytes l) % 2 ^ w := by
  induction l generalizing acc with
  | nil => exact (Nat.mod_eq_of_lt acc.isLt).symm
  | cons b l ih =>
    rw [List.foldl_cons, ih, sumBytes_cons, BitVec.toNat_add, BitVec.toNat_ofNat, Nat.add_mod_mod, Nat.mod_add_mod,
      Nat.add_assoc]

/-- Settles O26: what the accumulator holds agrees with the sum modulo 256, since 256 divides `2^w`. -/
theorem anyAccumulatorOfEightBitsSuffices : Obligations.AnyAccumulatorOfEightBitsSuffices := by
  unfold Obligations.AnyAccumulatorOfEightBitsSuffices
  intro w id l cmd pb hw
  have hdvd : 256 ∣ 2 ^ w := pow_dvd_pow 2 hw
  have hzero : (0 : BitVec w).toNat = 0 := by simp
  simp only [checksumAcc, checksum, foldl_add_toNat, Nat.mod_mod_of_dvd _ hdvd, hzero, sumBytes_cons, Nat.zero_add,
    Nat.add_assoc]

/-- Settles O27. -/
theorem chkverifyTestsTheWholeSum : Obligations.ChkverifyTestsTheWholeSum := by
  unfold Obligations.ChkverifyTestsTheWholeSum
  exact fun f s => ⟨chkverify f, rfl, chkverify_iff f⟩

end Sys2Proof.Machine
end

section
/-! PROOFS. The chain of checks of VALIDATE, a lemma per outcome, and what it says of changed, missized and long sequences
(R122 to R128) and of a chunk that fails a check against the head (R147). -/

namespace Sys2Proof.Machine

open Sys2Proof.Safety

/-! ### The outcome of the chain, by the first check that fails -/

section chain
variable {f : List Byte} {id cmd : Byte}

theorem validate_of_not_headerGood (v : Bool) (cmd : Byte) (hh : ¬ HeaderGood f) : validate v f id cmd = .err .header := by
  simp [validate_eq_checks, hh]

theorem validate_of_not_idGood (v : Bool) (cmd : Byte) (hh : HeaderGood f) (hi : ¬ IdGood f id) :
    validate v f id cmd = .err .id := by
  simp [validate_eq_checks, hh, hi]

theorem validate_of_not_lengthGood (v : Bool) (cmd : Byte) (hh : HeaderGood f) (hi : IdGood f id) (hl : ¬ LengthGood f) :
    validate v f id cmd = .err .length := by
  simp [validate_eq_checks, hh, hi, hl]

theorem validate_of_not_commandGood (v : Bool) (hh : HeaderGood f) (hi : IdGood f id) (hl : LengthGood f)
    (hc : ¬ CommandGood f cmd) : validate v f id cmd = .err .command := by
  simp [validate_eq_checks, hh, hi, hl, hc]

theorem validate_of_not_checksumGood (hh : HeaderGood f) (hi : IdGood f id) (hl : LengthGood f) (hc : CommandGood f cmd)
    (hk : ¬ ChecksumGood f) : validate true f id cmd = .err .checksum := by
  simp [validate_eq_checks, hh, hi, hl, hc, hk]

theorem validate_false_of_good (hh : HeaderGood f) (hi : IdGood f id) (hl : LengthGood f) (hc : CommandGood f cmd) :
    validate false f id cmd = .ok (slice f 5 (f.length - 1)) := by
  simp [validate_eq_checks, hh, hi, hl, hc]

/-- What VALIDATE accepts with checksum verification passes all five checks. -/
theorem checks_of_validate {pay : List Byte} (h : validate true f id cmd = .ok pay) :
    HeaderGood f ∧ IdGood f id ∧ LengthGood f ∧ CommandGood f cmd ∧ ChecksumGood f := by
  rw [validate_eq_checks] at h
  split_ifs at h with hh hi hl hc hk
  simp only [not_not, true_and] at hh hi hl hc hk
  exact ⟨hh, hi, hl, hc, hk⟩

/-- What VALIDATE accepts has the header and declares its own length. -/
theorem headerGood_lengthGood_of_validate {v : Bool} {pay : List Byte} (h : validate v f id cmd = .ok pay) :
    HeaderGood f ∧ LengthGood f := by
  obtain ⟨l, k, rfl, hl, -⟩ := (validate_ok_iff ..).1 h
  exact ⟨⟨_, rfl⟩, by simp, l, rfl, by simp [hl]⟩

/-- A sequence that does not declare its own length fails one of the first three checks. -/
theorem exists_validate_err_of_not_lengthGood (v : Bool) (id cmd : Byte) (hl : ¬ LengthGood f) :
    ∃ k ∈ [MismatchKind.header, .id, .length], validate v f id cmd = .err k := by
  by_cases hh : HeaderGood f
  · by_cases hi : IdGood f id
    · exact ⟨.length, by simp, validate_of_not_lengthGood v cmd hh hi hl⟩
    · exact ⟨.id, by simp, validate_of_not_idGood v cmd hh hi⟩
  · exact ⟨.header, by simp, validate_of_not_headerGood v cmd hh⟩

end chain

/-! ### Accepted frames -/

theorem eq_lengthByte {l : Byte} {pay : List Byte} (h : l.toNat = pay.length + 3) : l = lengthByte pay := by
  have hlen : pay.length ≤ 252 := by have := l.isLt; omega
  exact BitVec.eq_of_toNat_eq (h.trans (lengthByte_toNat hlen).symm)

/-- The last byte of a frame of R60 is the checksum. -/
theorem fields_eq_frameOf_iff {id l cmd k : Byte} {pay : List Byte} :
    0xFF#8 :: 0xFF#8 :: id :: l :: cmd :: (pay ++ [k]) = frameOf id l cmd pay ↔ k = checksum id l cmd pay := by
  simp [frameOf, checksum_eq_negatedSum]

/-- Settles O30. -/
theorem validateAcceptsExactlyGoodFrames : Obligations.ValidateAcceptsExactlyGoodFrames := by
  unfold Obligations.ValidateAcceptsExactlyGoodFrames
  intro v f id cmd pay
  constructor
  · intro h
    obtain ⟨l, k, rfl, hl, hk⟩ := (validate_ok_iff ..).1 h
    obtain rfl := eq_lengthByte hl
    exact ⟨validate_ok_length h, k, rfl, fun hv => fields_eq_frameOf_iff.2 (hk hv)⟩
  · rintro ⟨hlen, k, rfl, hframe⟩
    exact (validate_ok_iff ..).2 ⟨_, k, rfl, lengthByte_toNat hlen, fun hv => fields_eq_frameOf_iff.1 (hframe hv)⟩

/-! ### One changed byte -/

theorem headerGood_iff_getElem? (f : List Byte) : HeaderGood f ↔ f[0]? = some 0xFF#8 ∧ f[1]? = some 0xFF#8 := by
  rw [headerGood_iff, getElem?_eq_some_byteAt, getElem?_eq_some_byteAt]
  constructor
  · rintro ⟨hlen, h0, h1⟩; exact ⟨⟨by omega, h0⟩, by omega, h1⟩
  · rintro ⟨⟨-, h0⟩, hlen, h1⟩; exact ⟨hlen, h0, h1⟩

section set
variable {f : List Byte} {i : Nat} {b : Byte}

theorem headerGood_set (hi : 2 ≤ i) : HeaderGood (f.set i b) ↔ HeaderGood f := by
  rw [headerGood_iff_getElem?, headerGood_iff_getElem?, List.getElem?_set_ne (by omega), List.getElem?_set_ne (by omega)]

theorem idGood_set (id : Byte) (hi : i ≠ 2) : IdGood (f.set i b) id ↔ IdGood f id := by
  rw [IdGood, IdGood, List.getElem?_set_ne hi]

theorem lengthGood_set (hi : i ≠ 3) : LengthGood (f.set i b) ↔ LengthGood f := by
  rw [LengthGood, LengthGood, List.getElem?_set_ne hi, List.length_set]

theorem commandGood_set (cmd : Byte) (hi : i ≠ 4) : CommandGood (f.set i b) cmd ↔ CommandGood f cmd := by
  rw [CommandGood, CommandGood, List.getElem?_set_ne hi]

/-- A replaced byte is no longer the byte that stood there. -/
theorem getElem?_set_ne_of_ne {x : Byte} (h : i < f.length) (hb : b ≠ f[i]) (hx : f[i]? = some x) :
    (f.set i b)[i]? ≠ some x := by
  rw [List.getElem?_set_self h, ← hx, List.getElem?_eq_getElem h]
  exact fun heq => hb (Option.some.inj heq)

theorem not_headerGood_set (h : i < f.length) (hb : b ≠ f[i]) (hi : i ≤ 1) (hh : HeaderGood f) :
    ¬ HeaderGood (f.set i b) := by
  rw [headerGood_iff_getElem?] at hh ⊢
  obtain rfl | rfl := Nat.le_one_iff_eq_zero_or_eq_one.1 hi
  · exact fun hset => getElem?_set_ne_of_ne h hb hh.1 hset.1
  · exact fun hset => getElem?_set_ne_of_ne h hb hh.2 hset.2

theorem not_lengthGood_set (h : 3 < f.length) (hb : b ≠ f[3]) (hl : LengthGood f) : ¬ LengthGood (f.set 3 b) := by
  rintro ⟨-, l', hl', heq'⟩
  obtain ⟨-, l, hget, heq⟩ := hl
  have hsame : l' = l := BitVec.eq_of_toNat_eq (by rw [List.length_set] at heq'; omega)
  exact getElem?_set_ne_of_ne h hb hget (hsame ▸ hl')

/-- One changed byte behind the header changes the sum modulo 256. -/
theorem not_checksumGood_set (h : i < f.length) (hb : b ≠ f[i]) (hi : 2 ≤ i) (hk : ChecksumGood f) :
    ¬ ChecksumGood (f.set i b) := by
  obtain ⟨j, rfl⟩ := Nat.exists_eq_add_of_le' hi
  have hj : j < (f.drop 2).length := by rw [List.length_drop]; omega
  have hget : (f.drop 2)[j] = f[j + 2] := by simp only [List.getElem_drop, Nat.add_comm]
  have hold : f.drop 2 = (f.drop 2).take j ++ f[j + 2] :: (f.drop 2).drop (j + 1) := by
    rw [← hget, List.getElem_cons_drop, List.take_append_drop]
  have hnew : (f.set (j + 2) b).drop 2 = (f.drop 2).take j ++ b :: (f.drop 2).drop (j + 1) := by
    have hset : (f.set (j + 2) b).drop 2 = (f.drop 2).set j b := by simp [List.drop_set]
    rw [hset, List.set_eq_take_append_cons_drop, if_pos hj]
  rw [ChecksumGood, sum_map_toNat] at hk ⊢
  rw [hold] at hk
  rw [hnew, ← hk]
  exact sumBytes_exchange_ne _ _ hb

end set

/-- Settles O31: the changed byte breaks the check of its own field and no earlier one. -/
theorem oneCorruptedFieldGivesItsKind : Obligations.OneCorruptedFieldGivesItsKind := by
  unfold Obligations.OneCorruptedFieldGivesItsKind
  intro f id cmd b pay i hgood h hb
  obtain ⟨hh, hid, hl, hc, hk⟩ := checks_of_validate hgood
  refine ⟨fun hi v => ?header, fun hi v => ?id, fun hi v => ?length, fun hi v => ?command, fun hi => ?sum⟩
  case header => exact validate_of_not_headerGood v cmd (not_headerGood_set h hb hi hh)
  case id =>
    subst hi
    exact validate_of_not_idGood v cmd ((headerGood_set (by omega)).2 hh) (getElem?_set_ne_of_ne h hb hid)
  case length =>
    subst hi
    exact validate_of_not_lengthGood v cmd ((headerGood_set (by omega)).2 hh) ((idGood_set id (by omega)).2 hid)
      (not_lengthGood_set h hb hl)
  case command =>
    subst hi
    exact validate_of_not_commandGood v ((headerGood_set (by omega)).2 hh) ((idGood_set id (by omega)).2 hid)
      ((lengthGood_set (by omega)).2 hl) (getElem?_set_ne_of_ne h hb hc)
  case sum =>
    have hh' : HeaderGood (f.set i b) := (headerGood_set (by omega)).2 hh
    have hid' : IdGood (f.set i b) id := (idGood_set id (by omega)).2 hid
    have hl' : LengthGood (f.set i b) := (lengthGood_set (by omega)).2 hl
    have hc' : CommandGood (f.set i b) cmd := (commandGood_set cmd (by omega)).2 hc
    refine ⟨validate_of_not_checksumGood hh' hid' hl' hc' (not_checksumGood_set h hb (by omega) hk), ?_⟩
    rw [validate_false_of_good hh' hid' hl' hc', List.length_set]

/-! ### Missized and long sequences -/

/-- The declared length is one byte (R124). -/
theorem length_of_lengthGood {f : List Byte} (h : LengthGood f) : 6 ≤ f.length ∧ f.length ≤ 258 := by
  obtain ⟨hmin, l, -, hl⟩ := h
  have := l.isLt
  omega

/-- The header and the declared length of a frame stand before what is joined to it. -/
theorem headerGood_append {f : List Byte} (g : List Byte) (h : HeaderGood f) : HeaderGood (f ++ g) := by
  obtain ⟨r, rfl⟩ := h
  exact ⟨r ++ g, rfl⟩

theorem not_lengthGood_append {f g : List Byte} (hl : LengthGood f) (hg : g ≠ []) : ¬ LengthGood (f ++ g) := by
  rintro ⟨-, l', hl', heq'⟩
  obtain ⟨hmin, l, hget, heq⟩ := hl
  rw [List.getElem?_append_left (by omega), hget] at hl'
  cases hl'
  have hpos := List.length_pos_of_ne_nil hg
  rw [List.length_append] at heq'
  omega

/-- Settles O32. -/
theorem missizedSequencesNeverValidate : Obligations.MissizedSequencesNeverValidate := by
  unfold Obligations.MissizedSequencesNeverValidate
  refine ⟨fun v f id cmd hsize => ?missized, fun v w f g id cmd id' cmd' pay hok hg => ?joined⟩
  case missized =>
    refine exists_validate_err_of_not_lengthGood v id cmd fun hl => ?_
    have := length_of_lengthGood hl
    omega
  case joined =>
    obtain ⟨hh, hl⟩ := headerGood_lengthGood_of_validate hok
    have hh' := headerGood_append g hh
    by_cases hi : IdGood (f ++ g) id
    · exact ⟨.length, by simp, validate_of_not_lengthGood v cmd hh' hi (not_lengthGood_append hl hg)⟩
    · exact ⟨.id, by simp, validate_of_not_idGood v cmd hh' hi⟩

/-- Of sequences longer than 258 bytes, which all fail by check 3, VALIDATE reads the header and the id only. -/
theorem validate_congr_of_long {f g : List Byte} (hf : 258 < f.length) (hg : 258 < g.length)
    (h : f.take 258 = g.take 258) (v : Bool) (id cmd : Byte) : validate v f id cmd = validate v g id cmd := by
  have hget (i : Nat) (hi : i < 258) : f[i]? = g[i]? := by
    rw [← List.getElem?_take_of_lt hi, h, List.getElem?_take_of_lt hi]
  have hheader : HeaderGood f ↔ HeaderGood g := by
    rw [headerGood_iff_getElem?, headerGood_iff_getElem?, hget 0 (by omega), hget 1 (by omega)]
  have hid : IdGood f id ↔ IdGood g id := by
    rw [IdGood, IdGood, hget 2 (by omega)]
  have hlf : ¬ LengthGood f := fun hl => by have := length_of_lengthGood hl; omega
  have hlg : ¬ LengthGood g := fun hl => by have := length_of_lengthGood hl; omega
  by_cases hh : HeaderGood f
  · by_cases hi : IdGood f id
    · rw [validate_of_not_lengthGood v cmd hh hi hlf, validate_of_not_lengthGood v cmd (hheader.1 hh) (hid.1 hi) hlg]
    · rw [validate_of_not_idGood v cmd hh hi, validate_of_not_idGood v cmd (hheader.1 hh) (mt hid.2 hi)]
  · rw [validate_of_not_headerGood v cmd hh, validate_of_not_headerGood v cmd (mt hheader.2 hh)]

/-- CHUNK looks at its bytes through VALIDATE alone. -/
theorem exec_chunk_congr {f g : List Byte} (h : ∀ (v : Bool) (id cmd : Byte), validate v f id cmd = validate v g id cmd)
    (s : State) : exec (.chunk f) s = exec (.chunk g) s := by
  simp only [exec, execChunk, h]

/-- Settles O33. -/
theorem validateNeedsTheFirst259Bytes : Obligations.ValidateNeedsTheFirst259Bytes := by
  unfold Obligations.ValidateNeedsTheFirst259Bytes
  refine ⟨fun v f id cmd => ?first, fun f g hf hg h => ?agree⟩
  case first =>
    obtain hshort | hlong := le_or_gt f.length 258
    · rw [List.take_of_length_le (by omega)]
    · exact validate_congr_of_long hlong (by rw [List.length_take]; omega) (by simp [List.take_take]) v id cmd
  case agree => exact ⟨validate_congr_of_long hf hg h, exec_chunk_congr (validate_congr_of_long hf hg h)⟩

/-! ### Chunks that fail a check -/

/-- Settles O39: the chunk's verdict for the head is the first failing check, and a rejecting verdict is a diagnostic
entry. -/
theorem mismatchingChunkIsSwallowed : Obligations.MismatchingChunkIsSwallowed := by
  unfold Obligations.MismatchingChunkIsSwallowed
  intro s e q f hq
  refine ⟨fun hh => ?header, fun hh hi => ?id, fun hh hi hl => ?length, fun hh hi hl hc => ?command,
    fun hh hi hl hc hv hk => ?checksum⟩
  case header => exact exec_chunk_of_validate_err hq (validate_of_not_headerGood _ _ hh)
  case id => exact exec_chunk_of_validate_err hq (validate_of_not_idGood _ _ hh hi)
  case length => exact exec_chunk_of_validate_err hq (validate_of_not_lengthGood _ _ hh hi hl)
  case command => exact exec_chunk_of_validate_err hq (validate_of_not_commandGood _ hh hi hl hc)
  case checksum => exact exec_chunk_of_validate_err hq (hv ▸ validate_of_not_checksumGood hh hi hl hc hk)

end Sys2Proof.Machine
end

section
/-! PROOFS. The operations and events one at a time: the pure operations (R35), AWAIT, CANCEL, TICK, TERR, HWRESET, and
what every instruction does to the parameters, the streams and the queue's identities (R21, R29 to R31, R34). -/

namespace Sys2Proof.Machine

open Sys2Proof.Safety

/-! ### The pure operations -/

/-- BUILD answers a result that its operands alone determine. -/
theorem buildFrame_pure {id : Int} {b : Byte} {p : ParamRecord} {s t : State} (h : buildFrame id b p s = .next t) :
    ∃ r, t = respond s r ∧ ∀ s' : State, buildFrame id b p s' = .next (respond s' r) := by
  obtain ⟨⟨c, hc⟩, hp, ⟨hlo, hhi, rfl⟩ | ⟨hout, rfl⟩⟩ := buildFrame_next h
  · exact ⟨_, rfl, fun s' => (buildFrame_of_checkCall s' hc hp).trans (if_pos ⟨hlo, hhi⟩)⟩
  · exact ⟨_, rfl, fun s' => (buildFrame_of_checkCall s' hc hp).trans (if_neg hout)⟩

/-- `t` is `s` with a result written that the operands of `i` and VERIFY_CHECKSUM determine (R35). -/
def AnswersPurely (i : Instr) (s t : State) : Prop :=
  ∃ r, t = respond s r ∧
    ∀ s' : State, s.params.verifyChecksum = s'.params.verifyChecksum → exec i s' = .next (respond s' r)

theorem answersPurely_of_buildFrame {i : Instr} {id : Int} {b : Byte} {p : ParamRecord} {s t : State}
    (hi : ∀ u, exec i u = buildFrame id b p u) (h : exec i s = .next t) : AnswersPurely i s t := by
  obtain ⟨r, ht, hall⟩ := buildFrame_pure ((hi s).symm.trans h)
  exact ⟨r, ht, fun s' _ => (hi s').trans (hall s')⟩

theorem exec_pure {i : Instr} {s t : State} (hi : pureOperation i = true) (h : exec i s = .next t) :
    AnswersPurely i s t := by
  cases i with
  | ping id => exact answersPurely_of_buildFrame (exec_ping id) h
  | readData id r l => exact answersPurely_of_buildFrame (exec_readData id r l) h
  | writeData id r d => exact answersPurely_of_buildFrame (exec_writeData id r d) h
  | regWrite id r d => exact answersPurely_of_buildFrame (exec_regWrite id r d) h
  | action id => exact answersPurely_of_buildFrame (exec_action id) h
  | reset id => exact answersPurely_of_buildFrame (exec_reset id) h
  | syncWrite id r dl es => exact answersPurely_of_buildFrame (fun u => exec_syncWrite id r dl u es) h
  | bulkRead id es => exact answersPurely_of_buildFrame (fun u => exec_bulkRead id u es) h
  | build id b p => exact answersPurely_of_buildFrame (fun u => exec_build u id b p) h
  | encode b p =>
    obtain ⟨⟨c, hc⟩, rfl⟩ := execEncode_next h
    exact ⟨_, rfl, fun s' _ => exec_encode_of_checkCall_ok s' hc⟩
  | checksum id l c pb => cases h; exact ⟨_, rfl, fun _ _ => rfl⟩
  | chkverify f => cases h; exact ⟨_, rfl, fun _ _ => rfl⟩
  | parse f => cases h; exact ⟨_, rfl, fun _ _ => rfl⟩
  | validate f id c =>
    obtain ⟨pay, hv, rfl⟩ | ⟨k, hv, rfl⟩ := execValidate_next h
    · exact ⟨_, rfl, fun s' heq => exec_validate_of_ok (heq ▸ hv)⟩
    · exact ⟨_, rfl, fun s' heq => exec_validate_of_err (heq ▸ hv)⟩
  | await | cancel | chunk | tick | terr | hwreset => cases hi

/-- Settles O34. -/
theorem pureOperationsTouchNoState : Obligations.PureOperationsTouchNoState := by
  unfold Obligations.PureOperationsTouchNoState
  refine ⟨fun i s t hi h => ?frame, fun i s s' t hi hv h => ?independent⟩
  case frame =>
    obtain ⟨r, rfl, -⟩ := exec_pure hi h
    rfl
  case independent =>
    obtain ⟨r, rfl, hall⟩ := exec_pure hi h
    exact hall s' hv

/-! ### AWAIT -/

/-- Settles O35. -/
theorem awaitRegistersAnExpectation : Obligations.AwaitRegistersAnExpectation := by
  unfold Obligations.AwaitRegistersAnExpectation
  exact fun id c ms s hfree => ⟨s.nextHandle + 1#16, BitVec.toNat_add .., exec_await_of_free id c ms hfree⟩

/-- Settles O36. -/
theorem awaitOnAFullQueueReportsBusy : Obligations.AwaitOnAFullQueueReportsBusy := by
  unfold Obligations.AwaitOnAFullQueueReportsBusy
  exact fun id c ms _ hfull => exec_await_of_full id c ms hfull

/-! ### Events -/

theorem exec_tick (s : State) :
    exec .tick s = .next (terminate s (survivors s.queue) (expiries s.queue)) := by
  simp only [exec, execTick, tickQueue_eq]

theorem exec_terr (s : State) :
    exec .terr s = .next (terminate s [] (s.queue.map fun e => (e.handle, .rejected .transportError))) := rfl

theorem exec_chunk_of_empty {s : State} (f : List Byte) (hq : s.queue = []) : exec (.chunk f) s = .next s := by
  simp only [exec, execChunk, hq]

/-- With nothing pending, ending nothing changes nothing. -/
theorem terminate_nil {s : State} (hq : s.queue = []) : terminate s [] [] = s := by
  rw [terminate, List.append_nil, ← hq]

/-- Settles O37. -/
theorem eventsWithoutListenerChangeNothing : Obligations.EventsWithoutListenerChangeNothing := by
  unfold Obligations.EventsWithoutListenerChangeNothing
  intro f s hq
  refine ⟨exec_chunk_of_empty f hq, ?tick, ?terr⟩
  case tick => rw [exec_tick, hq]; exact congrArg _ (terminate_nil hq)
  case terr => rw [exec_terr, hq]; exact congrArg _ (terminate_nil hq)

/-- Settles O41. -/
theorem tickCountsDownOrExpires : Obligations.TickCountsDownOrExpires := by
  unfold Obligations.TickCountsDownOrExpires
  exact exec_tick

/-- Settles O44. -/
theorem transportErrorRejectsEveryExpectation : Obligations.TransportErrorRejectsEveryExpectation := by
  unfold Obligations.TransportErrorRejectsEveryExpectation
  exact exec_terr

/-- Settles O45. -/
theorem hardwareResetClearsTheBlock : Obligations.HardwareResetClearsTheBlock := by
  unfold Obligations.HardwareResetClearsTheBlock
  exact fun _ => rfl

/-- Settles O46. -/
theorem resetStateIsEmpty : Obligations.ResetStateIsEmpty := by
  unfold Obligations.ResetStateIsEmpty
  exact fun _ => ⟨rfl, rfl, rfl, rfl, rfl, rfl⟩

/-! ### CANCEL -/

theorem pendingCount_eq_zero {h : Handle} {q : List Expectation} (hq : ∀ e ∈ q, e.handle ≠ h) : pendingCount h q = 0 := by
  refine Nat.eq_zero_of_not_pos fun hpos => ?_
  obtain ⟨e, he, heq⟩ := pendingCount_pos.1 hpos
  exact hq e he heq

theorem pendingCount_append (h : Handle) (q q' : List Expectation) :
    pendingCount h (q ++ q') = pendingCount h q + pendingCount h q' :=
  List.countP_append

theorem pendingCount_eq_one {e : Expectation} {pre post : List Expectation}
    (hothers : ∀ x ∈ pre ++ post, x.handle ≠ e.handle) : pendingCount e.handle (pre ++ e :: post) = 1 := by
  have hzero := pendingCount_eq_zero hothers
  rw [pendingCount_append] at hzero
  rw [pendingCount_append, pendingCount_cons, if_pos rfl]
  omega

theorem exec_cancel_of_not_pending {h : Handle} {s : State} (hs : ∀ e ∈ s.queue, e.handle ≠ h) :
    exec (.cancel h) s = .next (report s .notPending) := by
  simp only [exec, execCancel, pendingCount_eq_zero hs]

/-- Settles O42. -/
theorem cancelEndsOnePendingExpectation : Obligations.CancelEndsOnePendingExpectation := by
  unfold Obligations.CancelEndsOnePendingExpectation
  intro h s hpending
  obtain ⟨hnone, -⟩ | ⟨pre, e, post, n, hq, rfl, hn, hx⟩ := execCancel_cases h s
  · exact absurd hnone (pendingCount_pos.2 hpending).ne'
  · refine ⟨pre, e, post, n, hq, rfl, hx, fun hothers => hn ?_⟩
    rw [hq]
    exact pendingCount_eq_one hothers

/-- Settles O43. -/
theorem cancelOfNoPendingHandleIsHarmless : Obligations.CancelOfNoPendingHandleIsHarmless := by
  unfold Obligations.CancelOfNoPendingHandleIsHarmless
  exact fun _ _ hs => exec_cancel_of_not_pending hs

/-! ### Parameters, streams and identities -/

theorem exec_params {i : Instr} {s t : State} (h : exec i s = .next t) : t.params = s.params := by
  cases exec_effect h with
  | quiet _ _ _ _ hp _ => exact hp
  | accepted _ _ _ _ _ ht => rw [ht]; rfl
  | ended _ _ _ _ hp _ _ _ _ => exact hp
  | reset _ ht => rw [ht]; rfl

/-- Settles O49. -/
theorem parametersStayAndStreamsOnlyGrow : Obligations.ParametersStayAndStreamsOnlyGrow := by
  unfold Obligations.ParametersStayAndStreamsOnlyGrow
  intro i s t h
  refine ⟨exec_params h, fun hi => ?streams⟩
  case streams =>
    cases exec_effect h with
    | quiet _ _ hd hg _ _ => exact ⟨⟨[], by rw [hd, List.append_nil]⟩, hg⟩
    | accepted _ _ _ _ _ ht => subst ht; exact ⟨⟨[], by simp⟩, [], by simp⟩
    | ended gone _ hd hg _ _ _ _ _ => exact ⟨⟨gone, hd⟩, [], by rw [hg, List.append_nil]⟩
    | reset hreset _ => exact absurd hreset hi

/-- Settles O50. -/
theorem queueKeepsIdentitiesInOrder : Obligations.QueueKeepsIdentitiesInOrder := by
  unfold Obligations.QueueKeepsIdentitiesInOrder
  intro i s t h
  cases exec_effect h with
  | quiet hq _ _ _ _ _ => exact .inl (by rw [hq])
  | accepted id c ms hi _ ht => exact .inr ⟨id, opcode c, ms, hi, by rw [ht, register_queue]⟩
  | ended _ _ _ _ _ _ hs _ _ => exact .inl hs
  | reset _ ht => subst ht; exact .inl (List.nil_sublist _)

end Sys2Proof.Machine
end

section
/-! PROOFS. Deadlines: what a number of TICKs leaves of a record, and how long the head stays the head (R148, R153). -/

namespace Sys2Proof.Machine

open Sys2Proof.Safety

/-- A record after `n` TICKs that did not end it. -/
def afterTicks (e : Expectation) (n : Nat) : Expectation := { e with remaining := BitVec.ofNat 32 (e.remaining.toNat - n) }

@[simp] theorem afterTicks_zero (e : Expectation) : afterTicks e 0 = e := by
  simp [afterTicks]

@[simp] theorem afterTicks_remaining (e : Expectation) (n : Nat) :
    (afterTicks e n).remaining.toNat = e.remaining.toNat - n := by
  have := e.remaining.isLt
  simp only [afterTicks, BitVec.toNat_ofNat]
  omega

theorem afterTicks_afterTicks (e : Expectation) (m n : Nat) : afterTicks (afterTicks e m) n = afterTicks e (m + n) := by
  rw [afterTicks, afterTicks_remaining, Nat.sub_sub]
  rfl

/-! ### One TICK -/

theorem survivors_cons_of_two_le {e : Expectation} (q : List Expectation) (h : 2 ≤ e.remaining.toNat) :
    survivors (e :: q) = afterTicks e 1 :: survivors q := by
  simp [survivors, afterTicks, h]

theorem afterTicks_one_mem_survivors {e : Expectation} {q : List Expectation} (he : e ∈ q)
    (h : 2 ≤ e.remaining.toNat) : afterTicks e 1 ∈ survivors q :=
  List.mem_map_of_mem (f := fun e => afterTicks e 1) (List.mem_filter.2 ⟨he, decide_eq_true h⟩)

theorem timedOut_mem_expiries {e : Expectation} {q : List Expectation} (he : e ∈ q) (h : e.remaining.toNat ≤ 1) :
    (e.handle, Completion.timedOut) ∈ expiries q :=
  List.mem_map_of_mem (f := fun e => (e.handle, Completion.timedOut)) (List.mem_filter.2 ⟨he, decide_eq_true h⟩)

/-! ### A record left alone -/

/-- Before its deadline a record is pending with its counter down by the number of TICKs. -/
theorem exists_mem_after_ticks {n : Nat} {s : State} {e : Expectation} (he : e ∈ s.queue)
    (hn : n < max e.remaining.toNat 1) :
    ∃ t, execAll (List.replicate n .tick) s = .next t ∧ afterTicks e n ∈ t.queue := by
  induction n generalizing s e with
  | zero => exact ⟨s, rfl, by rwa [afterTicks_zero]⟩
  | succ n ih =>
    have htwo : 2 ≤ e.remaining.toNat := by omega
    have hlater : n < max (afterTicks e 1).remaining.toNat 1 := by rw [afterTicks_remaining]; omega
    obtain ⟨t, ht, hmem⟩ := ih (s := terminate s (survivors s.queue) (expiries s.queue))
      (afterTicks_one_mem_survivors he htwo) hlater
    refine ⟨t, (execAll_cons_next _ (exec_tick s)).trans ht, ?_⟩
    rwa [afterTicks_afterTicks, Nat.add_comm] at hmem

/-- Settles O52. -/
theorem expectationTimesOutAtItsDeadline : Obligations.ExpectationTimesOutAtItsDeadline := by
  unfold Obligations.ExpectationTimesOutAtItsDeadline
  intro s e pre post hq
  have he : e ∈ s.queue := by simp [hq]
  refine ⟨fun n hn => exists_mem_after_ticks he hn, ?deadline⟩
  case deadline =>
    obtain ⟨t, ht, hmem⟩ := exists_mem_after_ticks (n := max e.remaining.toNat 1 - 1) he (by omega)
    have hlast : (afterTicks e (max e.remaining.toNat 1 - 1)).remaining.toNat ≤ 1 := by rw [afterTicks_remaining]; omega
    exact ⟨t, _, expiries t.queue, ht, exec_tick t, rfl, (timedOut_mem_expiries hmem hlast :)⟩

/-! ### The head -/

/-- The instructions that cannot end the head `e` at once, a TICK apart: neither TERR, HWRESET, its CANCEL nor a chunk that
validates for it. -/
def Spares (verifyChecksum : Bool) (e : Expectation) (i : Instr) : Prop :=
  i ≠ .terr ∧ i ≠ .hwreset ∧ i ≠ .cancel e.handle ∧
    ∀ f, i = .chunk f → ∀ pay, validate verifyChecksum f e.expId e.expCmd ≠ .ok pay

/-- CANCEL of another handle leaves the head at the head. -/
theorem head_of_cancel {h : Handle} {s u : State} {e : Expectation} {q : List Expectation} (hq : s.queue = e :: q)
    (hne : e.handle ≠ h) (hx : exec (.cancel h) s = .next u) : ∃ q', u.queue = e :: q' := by
  simp only [exec] at hx
  obtain ⟨-, hc⟩ | ⟨pre, x, post, n, hsplit, hxh, -, hc⟩ := execCancel_cases h s <;> rw [hc] at hx <;> cases hx
  · exact ⟨q, hq⟩
  · rw [hq] at hsplit
    cases pre with
    | nil => cases hsplit; exact absurd hxh hne
    | cons y pre => cases hsplit; exact ⟨pre ++ post, rfl⟩

/-- An instruction that spares the head and is no TICK leaves the head as it is. -/
theorem head_of_spares {i : Instr} {s u : State} {e : Expectation} {q : List Expectation} (hq : s.queue = e :: q)
    (hs : Spares s.params.verifyChecksum e i) (htick : i ≠ .tick) (hx : exec i s = .next u) :
    ∃ q', u.queue = e :: q' := by
  obtain ⟨hterr, hreset, hcancel, hchunk⟩ := hs
  by_cases hpure : pureOperation i = true
  · obtain ⟨r, rfl, -⟩ := exec_pure hpure hx
    exact ⟨q, hq⟩
  · cases i with
    | await id b ms =>
      obtain ⟨c, -, ⟨-, rfl⟩ | ⟨-, rfl⟩⟩ := execAwait_next hx
      · exact ⟨q, hq⟩
      · exact ⟨_, by rw [register_queue, hq, List.cons_append]⟩
    | cancel h => exact head_of_cancel hq (fun heq => hcancel (heq ▸ rfl)) hx
    | chunk f =>
      obtain ⟨pay, hv⟩ | ⟨k, hv⟩ := validate_cases s.params.verifyChecksum f e.expId e.expCmd
      · exact absurd hv (hchunk f rfl pay)
      · rw [exec_chunk_of_validate_err hq hv] at hx
        cases hx
        exact ⟨q, hq⟩
    | tick => exact absurd rfl htick
    | terr => exact absurd rfl hterr
    | hwreset => exact absurd rfl hreset
    | _ => exact absurd rfl hpure

/-- A TICK before its deadline leaves the head at the head. -/
theorem head_of_tick {s u : State} {e : Expectation} {q : List Expectation} (hq : s.queue = e :: q)
    (h : 2 ≤ e.remaining.toNat) (hx : exec .tick s = .next u) : ∃ q', u.queue = afterTicks e 1 :: q' := by
  rw [exec_tick] at hx
  cases hx
  exact ⟨survivors q, by rw [terminate_queue, hq, survivors_cons_of_two_le q h]⟩

/-- A script that answers runs its first instruction, then the others. -/
theorem execAll_cons_inv {i : Instr} {is : List Instr} {s t : State} (h : execAll (i :: is) s = .next t) :
    ∃ u, exec i s = .next u ∧ execAll is u = .next t := by
  rw [execAll] at h
  cases hx : exec i s with
  | next u => rw [hx] at h; exact ⟨u, rfl, h⟩
  | fault r => rw [hx] at h; cases h
  | refused r => rw [hx] at h; cases h

/-- Through instructions that spare it and fewer TICKs than its deadline, the head stays the head. -/
theorem head_after_execAll {is : List Instr} {s t : State} {e : Expectation} {q : List Expectation}
    (hq : s.queue = e :: q) (hrun : execAll is s = .next t) (hcount : is.count .tick < max e.remaining.toNat 1)
    (hs : ∀ i ∈ is, Spares s.params.verifyChecksum e i) :
    t.params = s.params ∧ ∃ q', t.queue = afterTicks e (is.count .tick) :: q' := by
  induction is generalizing s e q with
  | nil => cases hrun; exact ⟨rfl, q, by rw [List.count_nil, afterTicks_zero, hq]⟩
  | cons i is ih =>
    obtain ⟨u, hx, hrest⟩ := execAll_cons_inv hrun
    obtain ⟨hi, his⟩ := List.forall_mem_cons.1 hs
    have hp : u.params = s.params := exec_params hx
    by_cases htick : i = .tick
    · subst htick
      rw [List.count_cons_self] at hcount ⊢
      obtain ⟨q', hu⟩ := head_of_tick hq (by omega) hx
      obtain ⟨ht, q'', hq''⟩ := ih hu hrest (by rw [afterTicks_remaining]; omega) (hp ▸ his)
      exact ⟨ht.trans hp, q'', by rw [hq'', afterTicks_afterTicks, Nat.add_comm]⟩
    · rw [List.count_cons_of_ne htick] at hcount ⊢
      obtain ⟨q', hu⟩ := head_of_spares hq hi htick hx
      obtain ⟨ht, hq''⟩ := ih hu hrest hcount (hp ▸ his)
      exact ⟨ht.trans hp, hq''⟩

/-- Settles O53. -/
theorem headEndsByTheFirstMatchOrItsDeadline : Obligations.HeadEndsByTheFirstMatchOrItsDeadline := by
  unfold Obligations.HeadEndsByTheFirstMatchOrItsDeadline
  intro is s t e q hq hrun hcount hs
  obtain ⟨hp, q', ht⟩ := head_after_execAll hq hrun hcount hs
  refine ⟨q', ht, fun f pay hv => ?chunk, fun hlast => ?tick⟩
  case chunk => exact (exec_chunk_of_validate_ok ht (by rw [hp]; exact hv) :)
  case tick =>
    have hone : (afterTicks e (is.count .tick)).remaining.toNat ≤ 1 := by rw [afterTicks_remaining]; omega
    refine ⟨_, expiries q', exec_tick t, ?_⟩
    rw [terminate_done, ht, expiries_cons_of_le q' hone]
    rfl

end Sys2Proof.Machine
end

section
/-! PROOFS. Events and operations that are ready together: each order is possible and the first decides (R178). -/

namespace Sys2Proof.Machine

open Sys2Proof.Safety

/-! ### A chunk and the TICK that exhausts the head -/

/-- The TICK that exhausts the head ends it first. -/
theorem exec_tick_of_exhausted {s : State} {e : Expectation} {q : List Expectation} (hq : s.queue = e :: q)
    (h : e.remaining.toNat ≤ 1) :
    exec .tick s = .next (terminate s (survivors q) ((e.handle, .timedOut) :: expiries q)) := by
  rw [exec_tick, hq, survivors_cons_of_le q h, expiries_cons_of_le q h]

theorem terminate_terminate (s : State) (k k' : List Expectation) (d d' : List (Handle × Completion)) :
    terminate (terminate s k d) k' d' = terminate s k' (d ++ d') := by
  simp [terminate]

theorem execAll_pair {i j : Instr} {s t : State} (h : exec i s = .next t) : execAll [i, j] s = exec j t := by
  rw [execAll_cons_next _ h, execAll]
  cases exec j t <;> rfl

/-- Settles O54. -/
theorem simultaneousChunkAndTickAdmitBothOrders : Obligations.SimultaneousChunkAndTickAdmitBothOrders := by
  unfold Obligations.SimultaneousChunkAndTickAdmitBothOrders
  intro s e q f pay hq hlast hv
  have hchunk := exec_chunk_of_validate_ok hq hv
  have htick := exec_tick_of_exhausted hq hlast
  refine ⟨?chunkFirst, fun hnone => ?dropped, fun n q' hleft => ⟨fun p hp => ?resolved, fun k hk => ?diagnosed⟩⟩
  case chunkFirst =>
    rw [execAll_pair hchunk, exec_tick, terminate_terminate]
    rfl
  case dropped =>
    rw [execAll_pair htick, exec_chunk_of_empty f hnone, hnone]
    rfl
  case resolved =>
    rw [execAll_pair htick, exec_chunk_of_validate_ok (s := terminate s (survivors q) _) hleft hp]
    rfl
  case diagnosed =>
    rw [execAll_pair htick, exec_chunk_of_validate_err (s := terminate s (survivors q) _) hleft hk, hleft]
    rfl

/-! ### A chunk and an operation -/

/-- CANCEL of the head, where no other record has its handle. -/
theorem exec_cancel_head {s : State} {e : Expectation} {q : List Expectation} (hq : s.queue = e :: q)
    (hothers : ∀ x ∈ q, x.handle ≠ e.handle) :
    exec (.cancel e.handle) s = .next (respond (terminate s q [(e.handle, .cancelled)]) .ok) := by
  have hone : pendingCount e.handle (e :: q) = 1 := pendingCount_eq_one (pre := []) hothers
  simp only [exec, execCancel, hq, hone, dropPending, if_true]

/-- Settles O60. -/
theorem simultaneousChunkAndOperationAdmitBothOrders : Obligations.SimultaneousChunkAndOperationAdmitBothOrders := by
  unfold Obligations.SimultaneousChunkAndOperationAdmitBothOrders
  refine ⟨fun s e q f pay hq hv => ⟨⟨?chunkTerr, ?terrChunk⟩, fun hothers => ⟨?chunkCancel, ?cancelChunk⟩⟩,
    fun s id c ms f pay hq hcap hv => ⟨?chunkAwait, ?awaitChunk⟩⟩
  case chunkTerr =>
    rw [execAll_pair (exec_chunk_of_validate_ok hq hv), exec_terr, terminate_terminate]
    rfl
  case terrChunk =>
    rw [execAll_pair (exec_terr s), exec_chunk_of_empty f rfl, hq]
    rfl
  case chunkCancel =>
    rw [execAll_pair (exec_chunk_of_validate_ok hq hv), exec_cancel_of_not_pending hothers]
    rfl
  case cancelChunk =>
    rw [execAll_pair (exec_cancel_head hq hothers)]
    rfl
  case chunkAwait =>
    have hfree : s.queue.length < s.params.nExpect := by rw [hq]; exact hcap
    rw [execAll_pair (exec_chunk_of_empty f hq), exec_await_of_free id c ms hfree, register, hq]
    rfl
  case awaitChunk =>
    have hfree : s.queue.length < s.params.nExpect := by rw [hq]; exact hcap
    have hpending : (register s id (opcode c) ms).queue = ⟨s.nextHandle, id, opcode c, ms⟩ :: [] := by
      rw [register_queue, hq]
      rfl
    rw [execAll_pair (exec_await_of_free id c ms hfree), exec_chunk_of_validate_ok hpending hv, terminate, register, ← hq]

end Sys2Proof.Machine
end

section
/-! PROOFS. Handles can collide once the counter has wrapped (log 7). -/

namespace Sys2Proof.Machine

/-- `n` rounds of an AWAIT and the CANCEL of the handle it returns, the first of which is `h`. -/
def awaitCancelRounds : Nat → Handle → List Instr
  | 0, _ => []
  | n + 1, h => .await 1#8 (opcode .ping) 5#32 :: .cancel h :: awaitCancelRounds n (h + 1#16)

/-- One round: where an older record of another handle takes the one other place, it alone is left. -/
theorem awaitCancel_round {s : State} {e : Expectation} (hq : s.queue = [e]) (hcap : s.params.nExpect = 2)
    (hne : s.nextHandle ≠ e.handle) :
    ∃ t, (∀ is, execAll (.await 1#8 (opcode .ping) 5#32 :: .cancel s.nextHandle :: is) s = execAll is t) ∧
      t.queue = [e] ∧ t.nextHandle = s.nextHandle + 1#16 ∧ t.params = s.params := by
  have hawait := exec_await_of_free 1#8 .ping 5#32 (s := s) (by simp [hq, hcap])
  have hcancel : exec (.cancel s.nextHandle) (register s 1#8 (opcode .ping) 5#32) =
      .next (respond (terminate (register s 1#8 (opcode .ping) 5#32) [e] [(s.nextHandle, .cancelled)]) .ok) := by
    simp [exec, execCancel, hq, pendingCount, dropPending, hne.symm]
  exact ⟨_, fun is => (execAll_cons_next _ hawait).trans (execAll_cons_next is hcancel), rfl, rfl, rfl⟩

theorem add_one_add_ofNat (h : Handle) (n : Nat) : h + 1#16 + BitVec.ofNat 16 n = h + BitVec.ofNat 16 (n + 1) := by
  rw [Nat.add_comm n 1, BitVec.ofNat_add, BitVec.add_assoc]

/-- Rounds in which the counter does not reach the older record's handle leave that record alone. -/
theorem awaitCancel_rounds {n : Nat} {s : State} {e : Expectation} (hq : s.queue = [e]) (hcap : s.params.nExpect = 2)
    (hne : ∀ k < n, s.nextHandle + BitVec.ofNat 16 k ≠ e.handle) :
    ∃ t, (∀ is, execAll (awaitCancelRounds n s.nextHandle ++ is) s = execAll is t) ∧
      t.queue = [e] ∧ t.nextHandle = s.nextHandle + BitVec.ofNat 16 n ∧ t.params = s.params := by
  induction n generalizing s with
  | zero => exact ⟨s, fun _ => rfl, hq, by simp, rfl⟩
  | succ n ih =>
    have hnow : s.nextHandle ≠ e.handle := by simpa using hne 0 n.succ_pos
    obtain ⟨u, hround, huq, huh, hup⟩ := awaitCancel_round hq hcap hnow
    have hlater (k : Nat) (hk : k < n) : u.nextHandle + BitVec.ofNat 16 k ≠ e.handle := by
      rw [huh, add_one_add_ofNat]
      exact hne (k + 1) (Nat.succ_lt_succ hk)
    obtain ⟨t, hrest, htq, hth, htp⟩ := ih huq (hup ▸ hcap) hlater
    rw [huh] at hrest hth
    exact ⟨t, fun is => (hround _).trans (hrest is), htq, by rw [hth, add_one_add_ofNat], htp.trans hup⟩

/-- The counter leaves 0 and is there again after 65535 more AWAITs, not before. -/
theorem one_add_ofNat_ne_zero {k : Nat} (hk : k < 65535) : 1#16 + BitVec.ofNat 16 k ≠ 0#16 := by
  bv_omega

/-- Settles O57: a record of handle 0 stays pending through 65535 rounds of AWAIT and CANCEL; the next AWAIT returns handle
0 again. -/
theorem handlesCanCollideWithTwoPlaces : Obligations.HandlesCanCollideWithTwoPlaces := by
  unfold Obligations.HandlesCanCollideWithTwoPlaces
  have hfirst := exec_await_of_free 1#8 .ping 9#32
    (s := State.resetWith { verifyChecksum := true, nExpect := 2 }) (by decide)
  have hone : (register (State.resetWith { verifyChecksum := true, nExpect := 2 }) 1#8 (opcode .ping) 9#32).queue =
      [⟨0#16, 1#8, opcode .ping, 9#32⟩] := rfl
  obtain ⟨t, hrounds, hq, hh, hp⟩ := awaitCancel_rounds (n := 65535) hone rfl fun k hk => one_add_ofNat_ne_zero hk
  have hlast := exec_await_of_free 1#8 .ping 5#32 (s := t) (by rw [hq, hp]; decide)
  refine ⟨_, _, (execAll_cons_next _ hfirst).trans ((hrounds _).trans (execAll_cons_next [] hlast)), _, _,
    by rw [register_queue, hq]; rfl, ?_⟩
  rw [hh]
  rfl

end Sys2Proof.Machine
end

section
/-! PROOFS. The outcome codes of R171 can be read back (decision D12). -/

namespace Sys2Proof.Machine

/-- The kind a code stands for (R171). -/
def kindOfCode (b : Byte) : Option ErrorKind :=
  [.invalidId, .mismatch .header, .mismatch .id, .mismatch .length, .mismatch .command, .mismatch .checksum, .timeout,
    .transportError, .cancelled, .busy, .notPending].find? fun k => k.code == b

/-- The refusal a code stands for (R171). -/
def refusalOfCode (b : Byte) : Option Refusal :=
  [.unknownCommand, .variantMismatch, .illFormedParams, .paramTooLong, .unknownOperation].find? fun r => r.code == some b

theorem kindOfCode_code (k : ErrorKind) : kindOfCode k.code = some k := by
  cases k with
  | mismatch m => cases m <;> rfl
  | _ => rfl

/-- Only the five refusals of R172 have a code. -/
theorem refusalOfCode_of_code {r : Refusal} {n : Byte} (h : r.code = some n) : refusalOfCode n = some r := by
  cases r with
  | notModelled m => simp [Refusal.code] at h
  | _ => cases h; rfl

/-- The codes of the refusals stand for no kind. -/
theorem kindOfCode_of_refusal_code {r : Refusal} {n : Byte} (h : r.code = some n) : kindOfCode n = none := by
  cases r with
  | notModelled m => simp [Refusal.code] at h
  | _ => cases h; rfl

/-- Settles O58. -/
theorem outcomeCodesTellKindsApart : Obligations.OutcomeCodesTellKindsApart := by
  unfold Obligations.OutcomeCodesTellKindsApart
  refine ⟨fun j k h => ?kinds, fun j k n hj hk => ?refusals, fun k r h => ?apart⟩
  case kinds =>
    have hread := kindOfCode_code j
    rw [h, kindOfCode_code k] at hread
    exact (Option.some.inj hread).symm
  case refusals =>
    have hread := refusalOfCode_of_code hj
    rw [refusalOfCode_of_code hk] at hread
    exact (Option.some.inj hread).symm
  case apart =>
    have hread := kindOfCode_code k
    rw [kindOfCode_of_refusal_code h.symm] at hread
    cases hread

end Sys2Proof.Machine
end
